-- ==== Sys2Proof/Word.lean ====
section
/-! DEFINITION. The words NTPCODEC handles: bytes, command words, operands, and a command as the host sends it.
Bit 0 is the least significant bit and concatenation puts its left part in the more significant place (spec 00_scope.md R9);
Lean's `BitVec` and `++` have the same conventions. -/

namespace Sys2Proof

/-- One byte (00_scope.md R12). -/
abbrev Byte := BitVec 8

/-- The 32-bit words of the fixed-point fields and of the reference identifier. -/
abbrev Word32 := BitVec 32

/-- The 64-bit operand `WDATA`, the result `RDATA`, and the 64-bit timestamps. -/
abbrev Word64 := BitVec 64

/-- One command of the host: the command word `CMD` and the operand `WDATA` (30_encoding.md R70). -/
structure Command where
  cmd   : BitVec 16
  wdata : Word64
  deriving DecidableEq, Repr

end Sys2Proof
end

