-- ==== Sys2Proof/Syntax.lean ====
section
/-! DEFINITION. The 13 message registers as names and the 17 commands as one inductive, one constructor for each row of
spec/opcode_table.json (30_encoding.md R73). A command that reads `WDATA` carries it whole; the others do not have it (R71). -/

namespace Sys2Proof

/-- The message registers, in the order of their selectors 0 to 12 (10_state.md R21). -/
inductive MsgReg where
  | li | vn | mode | stratum | poll | prec | rdelay | rdisp | refid | refts | orgts | rects | xmtts
  deriving DecidableEq, Repr

/-- One command. `a` is the argument byte `ARG` of a command that takes an address, used as it stands (30_encoding.md R72). -/
inductive Instr where
  /-- 40_field_codec.md R108 -/
  | mclr
  /-- 40_field_codec.md R109 -/
  | mset (f : MsgReg) (wdata : Word64)
  /-- 40_field_codec.md R110 -/
  | mget (f : MsgReg)
  /-- 41_timestamp.md R130 -/
  | tontp (wdata : Word64)
  /-- 41_timestamp.md R131 -/
  | frntp (wdata : Word64)
  /-- 42_refid.md R146 -/
  | twr (a : Byte) (wdata : Word64)
  /-- 42_refid.md R147 -/
  | trd (a : Byte)
  /-- 42_refid.md R148 -/
  | tsetlen (wdata : Word64)
  /-- 42_refid.md R149 -/
  | ridstr
  /-- 42_refid.md R150 -/
  | ridset
  /-- 43_packet.md R165 -/
  | pwr (a : Byte) (wdata : Word64)
  /-- 43_packet.md R166 -/
  | prd (a : Byte)
  /-- 43_packet.md R167 -/
  | psetlen (wdata : Word64)
  /-- 43_packet.md R168 -/
  | pack
  /-- 43_packet.md R169 -/
  | unpack
  /-- 44_system.md R180 -/
  | srd
  /-- 44_system.md R181 -/
  | sclr
  deriving DecidableEq, Repr

end Sys2Proof
end

