-- ==== Sys2Proof/Decode.lean ====
section
/-! DEFINITION. The command word to a command and back (spec 30_encoding.md R70 to R76). The decoder is total on every
command word and operand, and names the clause of R74 by which it rejects a word. -/

namespace Sys2Proof

/-- Why a command word is illegal: the clauses (a) to (e) of 30_encoding.md R74. -/
inductive IllegalWord where
  /-- (a) `OP` is not one of the 17 opcodes -/
  | unassignedOpcode
  /-- (b) `MSET` or `MGET` and `ARG` is above 0x0C -/
  | noSuchRegister
  /-- (c) `TWR` or `TRD` and `ARG` is above 0x0F -/
  | noSuchTextByte
  /-- (d) `PRD` and `ARG` is above 0x2F -/
  | noSuchPacketByte
  /-- (e) a command without an argument and `ARG` is not 0x00 -/
  | argumentNotZero
  deriving DecidableEq, Repr

/-- What decoding answers: a command, or the reason why the word is illegal. -/
inductive Decoded where
  | instr (i : Instr)
  | illegal (why : IllegalWord)
  deriving DecidableEq, Repr

/-- `OP`, bits 15:8 of the command word (R70). -/
def Command.op (c : Command) : Byte := c.cmd.extractLsb' 8 8

/-- `ARG`, bits 7:0 of the command word (R70). -/
def Command.arg (c : Command) : Byte := c.cmd.extractLsb' 0 8

/-- The selector of a register (10_state.md R21). -/
def MsgReg.selector : MsgReg → Byte
  | .li => 0x00#8
  | .vn => 0x01#8
  | .mode => 0x02#8
  | .stratum => 0x03#8
  | .poll => 0x04#8
  | .prec => 0x05#8
  | .rdelay => 0x06#8
  | .rdisp => 0x07#8
  | .refid => 0x08#8
  | .refts => 0x09#8
  | .orgts => 0x0A#8
  | .rects => 0x0B#8
  | .xmtts => 0x0C#8

/-- The register an argument byte selects; none from 0x0D on, which takes in every byte whose bits 7:4 are not 0 (R72). -/
def MsgReg.ofSelector (arg : Byte) : Option MsgReg :=
  if arg = 0x00#8 then some .li
  else if arg = 0x01#8 then some .vn
  else if arg = 0x02#8 then some .mode
  else if arg = 0x03#8 then some .stratum
  else if arg = 0x04#8 then some .poll
  else if arg = 0x05#8 then some .prec
  else if arg = 0x06#8 then some .rdelay
  else if arg = 0x07#8 then some .rdisp
  else if arg = 0x08#8 then some .refid
  else if arg = 0x09#8 then some .refts
  else if arg = 0x0A#8 then some .orgts
  else if arg = 0x0B#8 then some .rects
  else if arg = 0x0C#8 then some .xmtts
  else none

/-- A command without an argument is legal only with `ARG` 0x00 (R74 (e)). -/
def withoutArg (arg : Byte) (i : Instr) : Decoded :=
  if arg = 0x00#8 then .instr i else .illegal .argumentNotZero

/-- A command that takes a register selector (R72, R74 (b)). -/
def withField (arg : Byte) (make : MsgReg → Instr) : Decoded :=
  match MsgReg.ofSelector arg with
  | some f => .instr (make f)
  | none => .illegal .noSuchRegister

/-- A command that takes an address with a greatest legal value (R73, R74 (c), (d)). -/
def withAddress (arg : Byte) (greatest : Nat) (why : IllegalWord) (i : Instr) : Decoded :=
  if arg.toNat ≤ greatest then .instr i else .illegal why

/-- The opcode map, 30_encoding.md R73. -/
def decode (c : Command) : Decoded :=
  if c.op = 0x01#8 then withoutArg c.arg .mclr
  else if c.op = 0x02#8 then withField c.arg (fun f => .mset f c.wdata)
  else if c.op = 0x03#8 then withField c.arg (fun f => .mget f)
  else if c.op = 0x10#8 then withoutArg c.arg (.tontp c.wdata)
  else if c.op = 0x11#8 then withoutArg c.arg (.frntp c.wdata)
  else if c.op = 0x20#8 then withAddress c.arg 0x0F .noSuchTextByte (.twr c.arg c.wdata)
  else if c.op = 0x21#8 then withAddress c.arg 0x0F .noSuchTextByte (.trd c.arg)
  else if c.op = 0x22#8 then withoutArg c.arg (.tsetlen c.wdata)
  else if c.op = 0x23#8 then withoutArg c.arg .ridstr
  else if c.op = 0x24#8 then withoutArg c.arg .ridset
  else if c.op = 0x30#8 then .instr (.pwr c.arg c.wdata)
  else if c.op = 0x31#8 then withAddress c.arg 0x2F .noSuchPacketByte (.prd c.arg)
  else if c.op = 0x32#8 then withoutArg c.arg (.psetlen c.wdata)
  else if c.op = 0x33#8 then withoutArg c.arg .pack
  else if c.op = 0x34#8 then withoutArg c.arg .unpack
  else if c.op = 0x40#8 then withoutArg c.arg .srd
  else if c.op = 0x41#8 then withoutArg c.arg .sclr
  else .illegal .unassignedOpcode

/-- The opcode of a command (R73). -/
def Instr.opcode : Instr → Byte
  | .mclr => 0x01#8
  | .mset _ _ => 0x02#8
  | .mget _ => 0x03#8
  | .tontp _ => 0x10#8
  | .frntp _ => 0x11#8
  | .twr _ _ => 0x20#8
  | .trd _ => 0x21#8
  | .tsetlen _ => 0x22#8
  | .ridstr => 0x23#8
  | .ridset => 0x24#8
  | .pwr _ _ => 0x30#8
  | .prd _ => 0x31#8
  | .psetlen _ => 0x32#8
  | .pack => 0x33#8
  | .unpack => 0x34#8
  | .srd => 0x40#8
  | .sclr => 0x41#8

/-- The argument byte of a command (R72). -/
def Instr.argument : Instr → Byte
  | .mset f _ => f.selector
  | .mget f => f.selector
  | .twr a _ => a
  | .trd a => a
  | .pwr a _ => a
  | .prd a => a
  | .mclr => 0x00#8
  | .tontp _ => 0x00#8
  | .frntp _ => 0x00#8
  | .tsetlen _ => 0x00#8
  | .ridstr => 0x00#8
  | .ridset => 0x00#8
  | .psetlen _ => 0x00#8
  | .pack => 0x00#8
  | .unpack => 0x00#8
  | .srd => 0x00#8
  | .sclr => 0x00#8

/-- The operand of a command; 0 for one that reads none (R71, R77). -/
def Instr.operand : Instr → Word64
  | .mset _ w => w
  | .tontp w => w
  | .frntp w => w
  | .twr _ w => w
  | .tsetlen w => w
  | .pwr _ w => w
  | .psetlen w => w
  | .mclr => 0#64
  | .mget _ => 0#64
  | .trd _ => 0#64
  | .ridstr => 0#64
  | .ridset => 0#64
  | .prd _ => 0#64
  | .pack => 0#64
  | .unpack => 0#64
  | .srd => 0#64
  | .sclr => 0#64

/-- The command word and operand of a command: `OP` in bits 15:8, `ARG` in bits 7:0 (R70). -/
def encode (i : Instr) : Command :=
  { cmd := i.opcode ++ i.argument, wdata := i.operand }

/-- The command whose bits are `w`, of which the table gives the lowest `nbits`: the command word is bits 15:0 and the
operand, the word that follows it, is bits 79:16; every bit from `nbits` on is 0
(DESIGN CHOICE, safe: log entry 5). -/
def tableCommand (nbits w : Nat) : Command :=
  { cmd := BitVec.ofNat 16 (w % 2 ^ nbits), wdata := BitVec.ofNat 64 (w % 2 ^ nbits / 2 ^ 16) }

/-- The decoder on an instruction numbered as spec/opcode_table.json numbers its bits. -/
def decodeTableWord (nbits w : Nat) : Option Instr :=
  match decode (tableCommand nbits w) with
  | .instr i => some i
  | .illegal _ => none

end Sys2Proof
end

