-- ==== Sys2Proof/Config.lean ====
section
/-! DEFINITION. The parameters of this hardware (spec 00_scope.md R6) and its one open parameter. -/

namespace Sys2Proof.Config

/-- `PKT_LEN`: the length of a packet in bytes (R6). -/
def pktLen : Nat := 48

/-- `TXT_MAX`: the length of the text buffer in bytes (R6). -/
def txtMax : Nat := 16

/-- The greatest value of the 16-bit `PLEN`, at which `PSETLEN` saturates (R6, 43_packet.md R167). -/
def plenMax : Nat := 65535

/-- `FX_FRAC_BITS`: fractional bits of root delay and root dispersion (R6). -/
def fxFracBits : Nat := 16

/-- FREE VALUE, the OPEN parameter `REFID_V4_FORMAT` (42_refid.md R144): some total function of the four bytes of a
reference identifier to a byte string.
It has no body, so no proof can learn anything of the string.
Its users cut it at 16 bytes, the one bound R144 gives.
DESIGN CHOICE, safe: log entry 1. -/
opaque refidV4Format : Byte → Byte → Byte → Byte → List Byte

end Sys2Proof.Config
end

