-- ==== Sys2Proof/Machine/State.lean ====
section
/-! DEFINITION. The architectural state of NTPCODEC (spec 10_state.md R20), the host's side of its port, what a step may
stop with, and the state after reset (R33). -/

namespace Sys2Proof.Machine

/-- The message value: the 13 message registers, each of its own width (10_state.md R21). -/
structure Message where
  li      : BitVec 2
  vn      : BitVec 3
  mode    : BitVec 3
  stratum : Byte
  poll    : Byte
  prec    : Byte
  rdelay  : Word32
  rdisp   : Word32
  refid   : Word32
  refts   : Word64
  orgts   : Word64
  rects   : Word64
  xmtts   : Word64
  deriving DecidableEq, Repr

/-- The message with every bit of every register 0 (10_state.md R33, R34). -/
def Message.zero : Message :=
  { li := 0#2, vn := 0#3, mode := 0#3, stratum := 0#8, poll := 0#8, prec := 0#8, rdelay := 0#32, rdisp := 0#32,
    refid := 0#32, refts := 0#64, orgts := 0#64, rects := 0#64, xmtts := 0#64 }

/-- The bytes of a buffer: (address, byte) pairs, addresses strictly rising, no entry equal to what an unlisted address
reads as (`unlistedByte` in Machine/Ops.lean). DESIGN CHOICE of the form, safe: log entry 7. -/
abbrev Memory := List Host.Cell

/-- The response codes (60_exceptions.md R200). Code 3 is never produced, so there is no fourth constructor. -/
inductive Resp where
  | ok
  | invalidPacket
  | illegalCommand
  deriving DecidableEq, Repr

/-- A response: the code `RESP` and the result `RDATA` (30_encoding.md R70). -/
structure Response where
  resp  : Resp
  rdata : Word64
  deriving DecidableEq, Repr

/-- What reaches the block from outside: a command (60_exceptions.md R215) or the reset event, which comes only between
commands (70_reset_and_hazards.md R220). -/
inductive HostEvent where
  | command (c : Command)
  | reset
  deriving DecidableEq, Repr

/-- Nothing stops this machine, so there is no fault: both failures of 60_exceptions.md R200 are responses after which the
block goes on (R208), every command is total (00_scope.md R14), and no address outside a buffer is ever accessed
(20_memory.md R53). DEDUCED, safe: log entry 4. -/
inductive Fault where
  deriving DecidableEq, Repr

/-- Refusals. -/
inductive Refusal where
  /-- Raised only by an arm of `exec` whose instruction has no meaning yet. Safe: nothing is claimed of such an
  instruction. No arm raises it. -/
  | notModelled (mnemonic : String)
  deriving DecidableEq, Repr

/-- The whole state: 10_state.md R20, then the two sides of the host's port, which are the model's own.
DESIGN CHOICE: log entry 2. -/
structure State where
  /-- `MSG` -/
  msg        : Message
  /-- `PKT`, addresses 0 to 47 -/
  pkt        : Memory
  /-- `PLEN` -/
  plen       : BitVec 16
  /-- `TXT`, addresses 0 to 15 -/
  txt        : Memory
  /-- `TLEN`, 0 to 16 -/
  tlen       : BitVec 5
  /-- `SINV` -/
  sinv       : Bool
  /-- `SILL` -/
  sill       : Bool
  /-- The model's own: what the host is still going to send, next first. The block holds no such queue (R32). -/
  hostEvents : List HostEvent
  /-- The model's own: the responses the host has received, oldest first (70_reset_and_hazards.md R226). -/
  responses  : List Response
  deriving DecidableEq, Repr

/-- The machine right after reset: every bit of the block's state is 0 (10_state.md R33, 70_reset_and_hazards.md R220);
no command is pending and none has been answered. -/
def State.reset : State :=
  { msg := Message.zero, pkt := [], plen := 0#16, txt := [], tlen := 0#5, sinv := false, sill := false,
    hostEvents := [], responses := [] }

end Sys2Proof.Machine
end

