-- ==== Sys2Proof/Machine/Flags.lean ====
section
/-! DEFINITION. The two sticky flags of spec 10_state.md R31 and the word `SRD` returns. There are no condition codes. -/

namespace Sys2Proof.Machine

/-- `SINV <- 1` (60_exceptions.md R201). -/
def State.recordInvalidPacket (s : State) : State := { s with sinv := true }

/-- `SILL <- 1` (60_exceptions.md R202). -/
def State.recordIllegalCommand (s : State) : State := { s with sill := true }

/-- Both flags to 0 (44_system.md R181). -/
def State.clearFlags (s : State) : State := { s with sinv := false, sill := false }

/-- The 64 bits `SRD` returns, from bit 63 down: 32 zeros, `PLEN`, 3 zeros, `TLEN`, 6 zeros, `SILL`, `SINV`
(44_system.md R180). -/
def State.statusWord (s : State) : Word64 :=
  0#32 ++ s.plen ++ 0#3 ++ s.tlen ++ 0#6 ++ BitVec.ofBool s.sill ++ BitVec.ofBool s.sinv

end Sys2Proof.Machine
end

