-- ==== Sys2Proof/Machine/Ops.lean ====
section
/-! DEFINITION. The named operations over the buffers and the state: byte and big-endian accesses (spec 20_memory.md), the
updates of one piece of state, the responses, the two failures (60_exceptions.md R201, R202), and the host's port. -/

namespace Sys2Proof.Machine

/-! ### Bytes of a buffer -/

/-- What an address of a buffer reads as when nothing is listed there: 0x00, the reset content (10_state.md R33). -/
def unlistedByte : Byte := 0x00#8

/-- `buf[a]` (00_scope.md R13). -/
def Memory.read : Memory → Nat → Byte
  | [], _ => unlistedByte
  | (k, v) :: rest, a => if a = k then v else Memory.read rest a

/-- A cell at the front of a buffer, left out where it would hold what an unlisted address reads as. -/
def Memory.cons (a : Nat) (b : Byte) (rest : Memory) : Memory :=
  if b = unlistedByte then rest else (a, b) :: rest

/-- `buf[a] <- b`, keeping the canonical form (00_scope.md R13). -/
def Memory.write : Memory → Nat → Byte → Memory
  | [], a, b => Memory.cons a b []
  | (k, v) :: rest, a, b =>
    if a < k then Memory.cons a b ((k, v) :: rest)
    else if a = k then Memory.cons a b rest
    else (k, v) :: Memory.write rest a b

/-- The canonical form from address `lo` on. -/
def Memory.wfFrom : Nat → Memory → Bool
  | _, [] => true
  | lo, (k, v) :: rest => decide (lo ≤ k) && decide (v ≠ unlistedByte) && Memory.wfFrom (k + 1) rest

/-- The canonical form: addresses strictly rising, no entry equal to what an unlisted address reads as. -/
def Memory.wf (m : Memory) : Bool := Memory.wfFrom 0 m

/-- Every listed address is below `size`, the number of bytes of the buffer. -/
def Memory.within (size : Nat) : Memory → Bool
  | [] => true
  | (k, _) :: rest => decide (k < size) && Memory.within size rest

/-! ### Big-endian access (20_memory.md R43 to R46) -/

/-- `BE32Write(buf, off, v)`, R44. -/
def Memory.be32Write (m : Memory) (off : Nat) (v : Word32) : Memory :=
  (((m.write off (v.extractLsb' 24 8)).write (off + 1) (v.extractLsb' 16 8)).write
    (off + 2) (v.extractLsb' 8 8)).write (off + 3) (v.extractLsb' 0 8)

/-- `BE32Read(buf, off)`, R45. -/
def Memory.be32Read (m : Memory) (off : Nat) : Word32 :=
  m.read off ++ m.read (off + 1) ++ m.read (off + 2) ++ m.read (off + 3)

/-- `BE64Write(buf, off, v)`, R46: byte `i` is `v[63-8i : 56-8i]`. -/
def Memory.be64Write (m : Memory) (off : Nat) (v : Word64) : Memory :=
  (((((((m.write off (v.extractLsb' 56 8)).write (off + 1) (v.extractLsb' 48 8)).write
    (off + 2) (v.extractLsb' 40 8)).write (off + 3) (v.extractLsb' 32 8)).write
    (off + 4) (v.extractLsb' 24 8)).write (off + 5) (v.extractLsb' 16 8)).write
    (off + 6) (v.extractLsb' 8 8)).write (off + 7) (v.extractLsb' 0 8)

/-- `BE64Read(buf, off)`, R46. -/
def Memory.be64Read (m : Memory) (off : Nat) : Word64 :=
  m.read off ++ m.read (off + 1) ++ m.read (off + 2) ++ m.read (off + 3) ++
    m.read (off + 4) ++ m.read (off + 5) ++ m.read (off + 6) ++ m.read (off + 7)

/-- Bytes written one after another from an address on. -/
def Memory.writeBytes (m : Memory) (off : Nat) : List Byte → Memory
  | [] => m
  | b :: bs => Memory.writeBytes (m.write off b) (off + 1) bs

/-- The bytes `buf[off]` to `buf[off+n-1]`. -/
def Memory.readBytes (m : Memory) (off : Nat) : Nat → List Byte
  | 0 => []
  | n + 1 => m.read off :: Memory.readBytes m (off + 1) n

/-! ### Updates of one piece of state -/

/-- Replace `MSG`. -/
def State.setMsg (s : State) (m : Message) : State := { s with msg := m }

/-- Replace the packet buffer. -/
def State.setPkt (s : State) (p : Memory) : State := { s with pkt := p }

/-- Write `PLEN`. -/
def State.setPlen (s : State) (n : BitVec 16) : State := { s with plen := n }

/-- Replace the text buffer. -/
def State.setTxt (s : State) (t : Memory) : State := { s with txt := t }

/-- Write `TLEN`. -/
def State.setTlen (s : State) (n : BitVec 5) : State := { s with tlen := n }

/-- The text: `TXT[0]` to `TXT[TLEN-1]` (10_state.md R30). -/
def State.text (s : State) : List Byte := s.txt.readBytes 0 s.tlen.toNat

/-! ### Responses and failures -/

/-- The host receives a response. -/
def State.respond (s : State) (r : Resp) (rdata : Word64) : State :=
  { s with responses := s.responses ++ [{ resp := r, rdata := rdata }] }

/-- The 2-bit response code `RESP` (60_exceptions.md R200). -/
def Resp.code : Resp → BitVec 2
  | .ok => 0#2
  | .invalidPacket => 1#2
  | .illegalCommand => 2#2

/-- `return v` (00_scope.md R13): `RESP = 0` and `RDATA = v`. -/
def returnData (s : State) (v : Word64) : Host.Outcome State Fault Refusal :=
  .next (s.respond .ok v)

/-- `return` alone (00_scope.md R13): `RESP = 0` and `RDATA = 0`. -/
def returnOk (s : State) : Host.Outcome State Fault Refusal :=
  returnData s 0#64

/-- `raise InvalidPacket` (60_exceptions.md R201): `RESP = 1`, `RDATA = 0`, `SINV <- 1`, nothing else. -/
def raiseInvalidPacket (s : State) : Host.Outcome State Fault Refusal :=
  .next (s.recordInvalidPacket.respond .invalidPacket 0#64)

/-- `raise IllegalCommand` (60_exceptions.md R202): `RESP = 2`, `RDATA = 0`, `SILL <- 1`, nothing else. -/
def raiseIllegalCommand (s : State) : Host.Outcome State Fault Refusal :=
  .next (s.recordIllegalCommand.respond .illegalCommand 0#64)

/-! ### The host's port -/

/-- The next event of the host and the state without it; none where the host sends nothing more. -/
def State.takeEvent (s : State) : Option (HostEvent × State) :=
  match s.hostEvents with
  | [] => none
  | e :: rest => some (e, { s with hostEvents := rest })

/-- The reset event (70_reset_and_hazards.md R220): every bit of the block's state to zero.
What the host is going to send and what it has received are the host's and stay (DESIGN CHOICE: log entry 2). -/
def State.platformReset (s : State) : State :=
  { State.reset with hostEvents := s.hostEvents, responses := s.responses }

/-- The state with a command placed first among the host's events. -/
def State.offer (s : State) (c : Command) : State :=
  { s with hostEvents := .command c :: s.hostEvents }

end Sys2Proof.Machine
end

