-- ==== Sys2Proof/Machine/Operands.lean ====
section
/-! DEFINITION. The operand forms: a register of the message file by its name, the truncation of `WDATA` to a register's
width, the extension of a register to `RDATA`, the byte of `WDATA`, and the two saturating lengths
(spec 30_encoding.md R71, 10_state.md R21, 40_field_codec.md R109, R110). -/

namespace Sys2Proof

/-- The width of a register (10_state.md R21). -/
def MsgReg.width : MsgReg → Nat
  | .li => 2
  | .vn => 3
  | .mode => 3
  | .stratum => 8
  | .poll => 8
  | .prec => 8
  | .rdelay => 32
  | .rdisp => 32
  | .refid => 32
  | .refts => 64
  | .orgts => 64
  | .rects => 64
  | .xmtts => 64

namespace Machine

/-- `MSG[f]` (00_scope.md R13). -/
def Message.get (m : Message) : (f : MsgReg) → BitVec f.width
  | .li => m.li
  | .vn => m.vn
  | .mode => m.mode
  | .stratum => m.stratum
  | .poll => m.poll
  | .prec => m.prec
  | .rdelay => m.rdelay
  | .rdisp => m.rdisp
  | .refid => m.refid
  | .refts => m.refts
  | .orgts => m.orgts
  | .rects => m.rects
  | .xmtts => m.xmtts

/-- `MSG[f] <- v` (00_scope.md R13). -/
def Message.set (m : Message) : (f : MsgReg) → BitVec f.width → Message
  | .li, v => { m with li := v }
  | .vn, v => { m with vn := v }
  | .mode, v => { m with mode := v }
  | .stratum, v => { m with stratum := v }
  | .poll, v => { m with poll := v }
  | .prec, v => { m with prec := v }
  | .rdelay, v => { m with rdelay := v }
  | .rdisp, v => { m with rdisp := v }
  | .refid, v => { m with refid := v }
  | .refts, v => { m with refts := v }
  | .orgts, v => { m with orgts := v }
  | .rects, v => { m with rects := v }
  | .xmtts, v => { m with xmtts := v }

/-- `WDATA[W-1:0]` with `W` the width of the register (40_field_codec.md R109). -/
def truncateTo (f : MsgReg) (wdata : Word64) : BitVec f.width := wdata.setWidth f.width

/-- What `MGET` returns (40_field_codec.md R110): `POLL`, `PREC` and `RDELAY` sign-extended, the timestamps whole, the others
zero-extended. -/
def Message.extended (m : Message) : MsgReg → Word64
  | .poll => m.poll.signExtend 64
  | .prec => m.prec.signExtend 64
  | .rdelay => m.rdelay.signExtend 64
  | .refts => m.refts
  | .orgts => m.orgts
  | .rects => m.rects
  | .xmtts => m.xmtts
  | .li => m.li.setWidth 64
  | .vn => m.vn.setWidth 64
  | .mode => m.mode.setWidth 64
  | .stratum => m.stratum.setWidth 64
  | .rdisp => m.rdisp.setWidth 64
  | .refid => m.refid.setWidth 64

/-- `WDATA[7:0]` (42_refid.md R146, 43_packet.md R165). -/
def byteOperand (wdata : Word64) : Byte := wdata.setWidth 8

/-- A byte zero-extended to `RDATA` (20_memory.md R47). -/
def zeroExtendByte (b : Byte) : Word64 := b.setWidth 64

/-- `min(u(WDATA), 16)`, the new `TLEN` (42_refid.md R148). -/
def saturatedTextLength (wdata : Word64) : BitVec 5 := BitVec.ofNat 5 (min wdata.toNat Config.txtMax)

/-- `min(u(WDATA), 65535)`, the new `PLEN` (43_packet.md R167). -/
def saturatedPacketLength (wdata : Word64) : BitVec 16 := BitVec.ofNat 16 (min wdata.toNat Config.plenMax)

end Machine

end Sys2Proof
end

