-- ==== Sys2Proof/Machine/FieldCodec.lean ====
section
/-! DEFINITION. The field codec (spec 40_field_codec.md): byte 0, the readings of a byte, 16.16 fixed point, and the commands
`MCLR`, `MSET`, `MGET`. -/

namespace Sys2Proof.Machine

/-! ### Byte 0 and the readings of a byte -/

/-- `PackByte0`, R100. -/
def packByte0 (li : BitVec 2) (vn : BitVec 3) (mode : BitVec 3) : Byte := li ++ vn ++ mode

/-- `UnpackByte0`, R101. -/
def unpackByte0 (b : Byte) : BitVec 2 × BitVec 3 × BitVec 3 :=
  (b.extractLsb' 6 2, b.extractLsb' 3 3, b.extractLsb' 0 3)

/-- `U8(b)`, 00_scope.md R12. -/
def u8 (b : Byte) : Nat := b.toNat

/-- `S8(b)`, 00_scope.md R12. -/
def s8 (b : Byte) : Int := b.toInt

/-! ### 16.16 fixed point -/

/-- `Round(x)`, the nearest integer with a tie going toward plus infinity (00_scope.md R11).
R11 is for a rational, R104 speaks of a real as well: any ordered field with a floor (DEDUCED, safe: log entry 9). -/
def roundHalfUp {K : Type} [Field K] [LinearOrder K] [FloorRing K] (x : K) : Int := ⌊x + 1 / 2⌋

/-- `FxValS(w)`, the value of root delay in seconds, R103. -/
def fxValS (w : Word32) : Rat := w.toInt / 2 ^ Config.fxFracBits

/-- `FxValU(w)`, the value of root dispersion in seconds, R103. -/
def fxValU (w : Word32) : Rat := w.toNat / 2 ^ Config.fxFracBits

/-- `FxQuantS(x)`, R104. The block never evaluates it: it is the host's and the assembler's. -/
def fxQuantS {K : Type} [Field K] [LinearOrder K] [FloorRing K] (x : K) : Word32 :=
  BitVec.ofInt 32 (roundHalfUp (x * 2 ^ Config.fxFracBits))

/-- `FxQuantU(x)`, R104: the same function, whose result is read back unsigned. -/
def fxQuantU {K : Type} [Field K] [LinearOrder K] [FloorRing K] (x : K) : Word32 :=
  BitVec.ofInt 32 (roundHalfUp (x * 2 ^ Config.fxFracBits))

/-- `FxDecodeS`, R105: the word of root delay, read with `fxValS`. -/
def fxDecodeS (b4 b5 b6 b7 : Byte) : Word32 := b4 ++ b5 ++ b6 ++ b7

/-- `FxDecodeU`, R106: the word of root dispersion, read with `fxValU`. -/
def fxDecodeU (b8 b9 b10 b11 : Byte) : Word32 := b8 ++ b9 ++ b10 ++ b11

/-! ### Commands -/

/-- `MCLR`, R108. -/
def execMclr (s : State) : Host.Outcome State Fault Refusal :=
  returnOk (s.setMsg Message.zero)

/-- `MSET f`, R109. -/
def execMset (f : MsgReg) (wdata : Word64) (s : State) : Host.Outcome State Fault Refusal :=
  returnOk (s.setMsg (s.msg.set f (truncateTo f wdata)))

/-- `MGET f`, R110. -/
def execMget (f : MsgReg) (s : State) : Host.Outcome State Fault Refusal :=
  returnData s (s.msg.extended f)

end Sys2Proof.Machine
end

