-- ==== Sys2Proof/Machine/RefId.lean ====
section
/-! DEFINITION. The reference-identifier interpreter (spec 42_refid.md) and the commands `TWR`, `TRD`, `TSETLEN`, `RIDSTR`,
`RIDSET`. -/

namespace Sys2Proof.Machine

/-! ### RefIdToText -/

/-- A trim byte: 0x00 to 0x20 (R140). -/
def isTrimByte (b : Byte) : Bool := decide (b.toNat ≤ 0x20)

/-- A byte string without its trailing trim bytes (R142). -/
def trimTail (t : List Byte) : List Byte := (t.reverse.dropWhile isTrimByte).reverse

/-- A byte string without its leading and trailing trim bytes (R151 step 2). -/
def trimBoth (t : List Byte) : List Byte := trimTail (t.dropWhile isTrimByte)

/-- The character code of a decimal digit. -/
def digitByte (d : Nat) : Byte := BitVec.ofNat 8 (0x30 + d)

/-- `Dec(n)` for n from 0 to 255: the decimal numeral with no leading zeros (R143). -/
def decimal (n : Nat) : List Byte :=
  if n < 10 then [digitByte n]
  else if n < 100 then [digitByte (n / 10), digitByte (n % 10)]
  else [digitByte (n / 100), digitByte (n / 10 % 10), digitByte (n % 10)]

/-- The character `.` -/
def dotByte : Byte := 0x2E#8

/-- The dotted-decimal text of four bytes (R143). -/
def dottedDecimal (b0 b1 b2 b3 : Byte) : List Byte :=
  decimal b0.toNat ++ [dotByte] ++ decimal b1.toNat ++ [dotByte] ++ decimal b2.toNat ++ [dotByte] ++ decimal b3.toNat

/-- `REFID_V4_FORMAT` of four bytes (R144): the free value of Config, of which a text takes at most 16 bytes.
DESIGN CHOICE, safe: log entry 1. -/
def refidV4Text (b0 b1 b2 b3 : Byte) : List Byte := (Config.refidV4Format b0 b1 b2 b3).take Config.txtMax

/-- `RefIdToText`, R141: the first of R142 to R145 that applies. -/
def refIdToText (b0 b1 b2 b3 : Byte) (stratum vn : Nat) : List Byte :=
  if stratum = 0 ∨ stratum = 1 then trimTail [b0, b1, b2, b3]
  else if vn = 3 then dottedDecimal b0 b1 b2 b3
  else if vn = 4 then refidV4Text b0 b1 b2 b3
  else []

/-! ### RefIdFromText -/

/-- Upper case of `a` to `z`, every other byte unchanged (R151 step 1). -/
def upperByte (b : Byte) : Byte := if 0x61 ≤ b.toNat ∧ b.toNat ≤ 0x7A then b - 0x20#8 else b

/-- A byte string cut or padded with nulls to `n` bytes. -/
def fitTo : Nat → List Byte → List Byte
  | 0, _ => []
  | n + 1, [] => 0x00#8 :: fitTo n []
  | n + 1, b :: bs => b :: fitTo n bs

/-- `RefIdFromText`, R151, its four bytes as a list of length 4. -/
def refIdFromText (text : List Byte) : List Byte := fitTo 4 (trimBoth (text.map upperByte))

/-- `{b0, b1, b2, b3}` of the first four bytes of a string (10_state.md R27). -/
def wordOfBytes (t : List Byte) : Word32 :=
  t.getD 0 0x00#8 ++ t.getD 1 0x00#8 ++ t.getD 2 0x00#8 ++ t.getD 3 0x00#8

/-- `REFID.b<i>`: byte 0 is bits 31:24 (10_state.md R27). -/
def refidByte (refid : Word32) (i : Nat) : Byte := refid.extractLsb' (24 - 8 * i) 8

/-! ### Commands -/

/-- `TWR a`, R146. -/
def execTwr (a : Byte) (wdata : Word64) (s : State) : Host.Outcome State Fault Refusal :=
  if a.toNat ≤ 15 then returnOk (s.setTxt (s.txt.write a.toNat (byteOperand wdata))) else raiseIllegalCommand s

/-- `TRD a`, R147. -/
def execTrd (a : Byte) (s : State) : Host.Outcome State Fault Refusal :=
  if a.toNat ≤ 15 then returnData s (zeroExtendByte (s.txt.read a.toNat)) else raiseIllegalCommand s

/-- `TSETLEN`, R148. -/
def execTsetlen (wdata : Word64) (s : State) : Host.Outcome State Fault Refusal :=
  returnOk (s.setTlen (saturatedTextLength wdata))

/-- The text `RIDSTR` renders: `RefIdToText` of `REFID`, `STRATUM`, `VN` (R149). -/
def Message.refidText (m : Message) : List Byte :=
  refIdToText (refidByte m.refid 0) (refidByte m.refid 1) (refidByte m.refid 2) (refidByte m.refid 3)
    m.stratum.toNat m.vn.toNat

/-- `RIDSTR`, R149: all 16 bytes of `TXT` are written, the tail with nulls. -/
def execRidstr (s : State) : Host.Outcome State Fault Refusal :=
  returnOk ((s.setTxt (s.txt.writeBytes 0 (fitTo Config.txtMax s.msg.refidText))).setTlen
    (BitVec.ofNat 5 s.msg.refidText.length))

/-- `RIDSET`, R150. -/
def execRidset (s : State) : Host.Outcome State Fault Refusal :=
  returnOk (s.setMsg (s.msg.set .refid (wordOfBytes (refIdFromText s.text))))

end Sys2Proof.Machine
end

