-- ==== Sys2Proof/Machine/Timestamp.lean ====
section
/-! DEFINITION. The timestamp converter (spec 41_timestamp.md) and the commands `TONTP` and `FRNTP`. -/

namespace Sys2Proof.Machine

/-- `ERA1_EPOCH_MS`, the era boundary and the era-1 base (00_scope.md R6). -/
def era1EpochMs : Int := 2085978496000

/-- `ERA0_EPOCH_MS`, the era-0 base (00_scope.md R6). -/
def era0EpochMs : Int := -2208988800000

/-- The era rule R120: an epoch-millisecond value is in era 0. -/
def inEra0 (t : Int) : Bool := decide (t < era1EpochMs)

/-- `ToNtpTime(t)`, the five steps of R121: `tdiv` and `tmod` truncate toward zero (00_scope.md R10).
The values before 1900 are the spec's decision and not free (DESIGN CHOICE, unsafe: log entry 8). -/
def toNtpTime (t : Int) : Word64 :=
  let base := t - (if inEra0 t then era0EpochMs else era1EpochMs)
  let sec := Int.tdiv base 1000
  let r := Int.tmod base 1000
  let frac := Int.tdiv (r * 2 ^ 32) 1000
  let seconds := if inEra0 t then BitVec.ofInt 64 sec ||| 0x0000000080000000#64 else BitVec.ofInt 64 sec
  (seconds <<< 32) ||| BitVec.ofInt 64 frac

/-- `fm`, the milliseconds of a 32-bit fraction, rounded with ties upward (R125 step 2, R126). -/
def fractionMillis (frac : Nat) : Nat := (1000 * frac + 2 ^ 31) / 2 ^ 32

/-- `FromNtpTime(ts)`, the four steps of R125. -/
def fromNtpTime (ts : Word64) : Int :=
  let sec := (ts.extractLsb' 32 32).toNat
  let frac := (ts.extractLsb' 0 32).toNat
  let baseE := if ts.getLsbD 63 then era0EpochMs else era1EpochMs
  baseE + sec * 1000 + fractionMillis frac

/-- `DOM_LO`, the least value of the representable domain (41_timestamp.md, header). -/
def domLo : Int := -61505152000

/-- `DOM_HI`, the bound of the representable domain (41_timestamp.md, header). -/
def domHi : Int := 4233462144000

/-- `TONTP`, R130. -/
def execTontp (wdata : Word64) (s : State) : Host.Outcome State Fault Refusal :=
  returnData s (toNtpTime wdata.toInt)

/-- `FRNTP`, R131. -/
def execFrntp (wdata : Word64) (s : State) : Host.Outcome State Fault Refusal :=
  returnData s (BitVec.ofInt 64 (fromNtpTime wdata))

end Sys2Proof.Machine
end

