-- ==== Sys2Proof/Machine/Packet.lean ====
section
/-! DEFINITION. The packet entry points `Pack` and `Unpack` (spec 43_packet.md) and the commands `PWR`, `PRD`, `PSETLEN`,
`PACK`, `UNPACK`. -/

namespace Sys2Proof.Machine

/-- The 48 bytes of `Pack(m)` written into a buffer, R160 line by line. -/
def packInto (p : Memory) (m : Message) : Memory :=
  let p := p.write 0 (packByte0 m.li m.vn m.mode)
  let p := p.write 1 m.stratum
  let p := p.write 2 m.poll
  let p := p.write 3 m.prec
  let p := p.be32Write 4 m.rdelay
  let p := p.be32Write 8 m.rdisp
  let p := p.write 12 (refidByte m.refid 0)
  let p := p.write 13 (refidByte m.refid 1)
  let p := p.write 14 (refidByte m.refid 2)
  let p := p.write 15 (refidByte m.refid 3)
  let p := p.be64Write 16 (toNtpTime m.refts.toInt)
  let p := p.be64Write 24 (toNtpTime m.orgts.toInt)
  let p := p.be64Write 32 (toNtpTime m.rects.toInt)
  p.be64Write 40 (toNtpTime m.xmtts.toInt)

/-- `Pack(m)`, R160: a packet that depends on nothing but the message. -/
def pack (m : Message) : Memory := packInto [] m

/-- The one way `Unpack` fails (R162). -/
inductive PacketError where
  | invalidPacket
  deriving DecidableEq, Repr

/-- The message in the first 48 bytes of a buffer, R161. -/
def unpackFields (buf : Memory) : Message :=
  { li := (unpackByte0 (buf.read 0)).1
    vn := (unpackByte0 (buf.read 0)).2.1
    mode := (unpackByte0 (buf.read 0)).2.2
    stratum := buf.read 1
    poll := buf.read 2
    prec := buf.read 3
    rdelay := buf.be32Read 4
    rdisp := buf.be32Read 8
    refid := buf.read 12 ++ buf.read 13 ++ buf.read 14 ++ buf.read 15
    refts := BitVec.ofInt 64 (fromNtpTime (buf.be64Read 16))
    orgts := BitVec.ofInt 64 (fromNtpTime (buf.be64Read 24))
    rects := BitVec.ofInt 64 (fromNtpTime (buf.be64Read 32))
    xmtts := BitVec.ofInt 64 (fromNtpTime (buf.be64Read 40)) }

/-- `Unpack(buf, len)`, R161, R162: it fails when `len < 48` and on nothing else. -/
def unpack (buf : Memory) (len : Nat) : Except PacketError Message :=
  if len < Config.pktLen then .error .invalidPacket else .ok (unpackFields buf)

/-! ### Commands -/

/-- `PWR a`, R165: an address from 48 on stores nothing and the command still succeeds. -/
def execPwr (a : Byte) (wdata : Word64) (s : State) : Host.Outcome State Fault Refusal :=
  if a.toNat ≤ 47 then returnOk (s.setPkt (s.pkt.write a.toNat (byteOperand wdata))) else returnOk s

/-- `PRD a`, R166. -/
def execPrd (a : Byte) (s : State) : Host.Outcome State Fault Refusal :=
  if a.toNat ≤ 47 then returnData s (zeroExtendByte (s.pkt.read a.toNat)) else raiseIllegalCommand s

/-- `PSETLEN`, R167. -/
def execPsetlen (wdata : Word64) (s : State) : Host.Outcome State Fault Refusal :=
  returnOk (s.setPlen (saturatedPacketLength wdata))

/-- `PACK`, R168. -/
def execPack (s : State) : Host.Outcome State Fault Refusal :=
  returnOk ((s.setPkt (packInto s.pkt s.msg)).setPlen (BitVec.ofNat 16 Config.pktLen))

/-- `UNPACK`, R169. -/
def execUnpack (s : State) : Host.Outcome State Fault Refusal :=
  match unpack s.pkt s.plen.toNat with
  | .error .invalidPacket => raiseInvalidPacket s
  | .ok m => returnOk (s.setMsg m)

end Sys2Proof.Machine
end

