-- ==== Sys2Proof/Machine/System.lean ====
section
/-! DEFINITION. The status commands `SRD` and `SCLR` (spec 44_system.md). -/

namespace Sys2Proof.Machine

/-- `SRD`, R180. -/
def execSrd (s : State) : Host.Outcome State Fault Refusal :=
  returnData s s.statusWord

/-- `SCLR`, R181. -/
def execSclr (s : State) : Host.Outcome State Fault Refusal :=
  returnOk s.clearFlags

end Sys2Proof.Machine
end

