-- ==== Sys2Proof/Machine/Dispatch.lean ====
section
/-! DEFINITION. One arm for each command: the opcode map of spec 30_encoding.md R73, each arm a direct call of its meaning. -/

namespace Sys2Proof.Machine

def exec (i : Instr) (s : State) : Host.Outcome State Fault Refusal :=
  match i with
  | .mclr => Sys2Proof.Machine.execMclr s
  | .mset f wdata => Sys2Proof.Machine.execMset f wdata s
  | .mget f => Sys2Proof.Machine.execMget f s
  | .tontp wdata => Sys2Proof.Machine.execTontp wdata s
  | .frntp wdata => Sys2Proof.Machine.execFrntp wdata s
  | .twr a wdata => Sys2Proof.Machine.execTwr a wdata s
  | .trd a => Sys2Proof.Machine.execTrd a s
  | .tsetlen wdata => Sys2Proof.Machine.execTsetlen wdata s
  | .ridstr => Sys2Proof.Machine.execRidstr s
  | .ridset => Sys2Proof.Machine.execRidset s
  | .pwr a wdata => Sys2Proof.Machine.execPwr a wdata s
  | .prd a => Sys2Proof.Machine.execPrd a s
  | .psetlen wdata => Sys2Proof.Machine.execPsetlen wdata s
  | .pack => Sys2Proof.Machine.execPack s
  | .unpack => Sys2Proof.Machine.execUnpack s
  | .srd => Sys2Proof.Machine.execSrd s
  | .sclr => Sys2Proof.Machine.execSclr s

end Sys2Proof.Machine
end

