-- ==== Sys2Proof/Machine/Step.lean ====
section
/-! DEFINITION. One step of the block: it takes the host's next event and finishes it
(spec 00_scope.md R8, 60_exceptions.md R206 to R208, 70_reset_and_hazards.md R220, R224). -/

namespace Sys2Proof.Machine

/-- With no event left the block is idle and keeps its state (60_exceptions.md R214; DESIGN CHOICE: log entry 2).
The reset event zeroes it (R220).
A command's word is decoded first: an illegal word raises IllegalCommand (R202, R206), a legal one runs. -/
def step (s : State) : Host.Outcome State Fault Refusal :=
  match s.takeEvent with
  | none => .next s
  | some (.reset, t) => .next t.platformReset
  | some (.command c, t) =>
    match decode c with
    | .instr i => exec i t
    | .illegal _ => raiseIllegalCommand t

/-- The state in which the next step runs the instruction whose bits are `w`: it is the host's next command
(DESIGN CHOICE, safe: log entry 3). -/
def State.withFetchWord (s : State) (nbits w : Nat) : State := s.offer (tableCommand nbits w)

end Sys2Proof.Machine
end

