-- ==== Sys2Proof/WellFormed.lean ====
section
/-! DEFINITION. Which terms of `Instr` have a legal command word: the address ranges of spec 30_encoding.md R73.
A selector needs no check, since `MsgReg` names exactly the 13 registers, and every address of `PWR` is legal. -/

namespace Sys2Proof

/-- The command has a legal word (30_encoding.md R73, R74): a text address is at most 15 and an address of `PRD` at most 47. -/
def Instr.wellFormed : Instr → Bool
  | .mclr => true
  | .mset _ _ => true
  | .mget _ => true
  | .tontp _ => true
  | .frntp _ => true
  | .twr a _ => a.toNat ≤ 0x0F
  | .trd a => a.toNat ≤ 0x0F
  | .tsetlen _ => true
  | .ridstr => true
  | .ridset => true
  | .pwr _ _ => true
  | .prd a => a.toNat ≤ 0x2F
  | .psetlen _ => true
  | .pack => true
  | .unpack => true
  | .srd => true
  | .sclr => true

end Sys2Proof
end

