-- ==== Sys2Proof/Machine/Assembler.lean ====
section
/-! DEFINITION. The spec's own notation (spec 30_encoding.md R77, R78): one line of assembler text to commands, and the
pseudo-instructions `PLOAD`, `TLOAD`, `MSETQ` to their expansions. The block does not run it; a host does.
Text is a list of characters, so that Lean's kernel evaluates it. What the spec leaves open of the text is a
DESIGN CHOICE, safe: log entry 10. -/

namespace Sys2Proof.Machine

/-! ### Pseudo-instructions (R78) -/

/-- `PWR i, b` for bytes from address `i` on. -/
def pwrFrom (i : Nat) : List Byte → List Instr
  | [] => []
  | b :: bs => .pwr (BitVec.ofNat 8 i) (zeroExtendByte b) :: pwrFrom (i + 1) bs

/-- `PLOAD b0, ..., b(n-1)`: n from 0 to 256 bytes, then `PSETLEN n`. -/
def pload (bs : List Byte) : Option (List Instr) :=
  if bs.length ≤ 256 then some (pwrFrom 0 bs ++ [.psetlen (BitVec.ofNat 64 bs.length)]) else none

/-- `TWR i, b` for bytes from address `i` on. -/
def twrFrom (i : Nat) : List Byte → List Instr
  | [] => []
  | b :: bs => .twr (BitVec.ofNat 8 i) (zeroExtendByte b) :: twrFrom (i + 1) bs

/-- `TLOAD "s"` on the character codes of `s`: at most 16 characters, then `TSETLEN n`. -/
def tload (bs : List Byte) : Option (List Instr) :=
  if bs.length ≤ 16 then some (twrFrom 0 bs ++ [.tsetlen (BitVec.ofNat 64 bs.length)]) else none

/-- `MSETQ f, x`: `f` is `RDELAY` or `RDISP`, and the word is quantised by the assembler. -/
def msetq (f : MsgReg) (x : Rat) : Option Instr :=
  match f with
  | .rdelay => some (.mset .rdelay ((fxQuantS x).setWidth 64))
  | .rdisp => some (.mset .rdisp ((fxQuantU x).setWidth 64))
  | .li => none
  | .vn => none
  | .mode => none
  | .stratum => none
  | .poll => none
  | .prec => none
  | .refid => none
  | .refts => none
  | .orgts => none
  | .rects => none
  | .xmtts => none

/-- A program of commands as the host's events. -/
def programEvents (is : List Instr) : List HostEvent := is.map fun i => .command (encode i)

/-! ### Assembler text (R77) -/

/-- A blank between the parts of a line. -/
def isBlank (c : Char) : Bool := c == ' ' || c == '\t'

/-- Text without blanks at its ends. -/
def stripBlanks (t : List Char) : List Char := ((t.dropWhile isBlank).reverse.dropWhile isBlank).reverse

/-- Text cut at every occurrence of a separator. -/
def splitAtSep (sep : Char) : List Char → List (List Char)
  | [] => [[]]
  | c :: cs =>
    if c = sep then [] :: splitAtSep sep cs
    else match splitAtSep sep cs with
      | [] => [[c]]
      | w :: ws => (c :: w) :: ws

/-- The value of a digit in a base up to 16. -/
def digitValue (base : Nat) (c : Char) : Option Nat :=
  let n := c.toNat
  let v := if 0x30 ≤ n ∧ n ≤ 0x39 then n - 0x30
    else if 0x41 ≤ n ∧ n ≤ 0x46 then n - 0x41 + 10
    else if 0x61 ≤ n ∧ n ≤ 0x66 then n - 0x61 + 10
    else base
  if v < base then some v else none

/-- The digits of a numeral after those already read. -/
def digitsFrom (base : Nat) (acc : Nat) : List Char → Option Nat
  | [] => some acc
  | c :: cs =>
    match digitValue base c with
    | some v => digitsFrom base (acc * base + v) cs
    | none => none

/-- A numeral with at least one digit. -/
def numeral (base : Nat) (t : List Char) : Option Nat :=
  match t with
  | [] => none
  | _ :: _ => digitsFrom base 0 t

/-- A decimal or `0x` hexadecimal number. -/
def number (t : List Char) : Option Nat :=
  match t with
  | '0' :: 'x' :: h => numeral 16 h
  | _ => numeral 10 t

/-- An operand: a number, or a decimal with a leading `-` in two's complement, that fits 64 bits. -/
def operandText (t : List Char) : Option Word64 :=
  match t with
  | '-' :: d =>
    match numeral 10 d with
    | some n => if n ≤ 2 ^ 63 then some (BitVec.ofInt 64 (-(n : Int))) else none
    | none => none
  | _ =>
    match number t with
    | some n => if n < 2 ^ 64 then some (BitVec.ofNat 64 n) else none
    | none => none

/-- The register of a name of 10_state.md R21. -/
def registerText (t : List Char) : Option MsgReg :=
  if t = ['L', 'I'] then some .li
  else if t = ['V', 'N'] then some .vn
  else if t = ['M', 'O', 'D', 'E'] then some .mode
  else if t = ['S', 'T', 'R', 'A', 'T', 'U', 'M'] then some .stratum
  else if t = ['P', 'O', 'L', 'L'] then some .poll
  else if t = ['P', 'R', 'E', 'C'] then some .prec
  else if t = ['R', 'D', 'E', 'L', 'A', 'Y'] then some .rdelay
  else if t = ['R', 'D', 'I', 'S', 'P'] then some .rdisp
  else if t = ['R', 'E', 'F', 'I', 'D'] then some .refid
  else if t = ['R', 'E', 'F', 'T', 'S'] then some .refts
  else if t = ['O', 'R', 'G', 'T', 'S'] then some .orgts
  else if t = ['R', 'E', 'C', 'T', 'S'] then some .rects
  else if t = ['X', 'M', 'T', 'T', 'S'] then some .xmtts
  else none

/-- An address argument up to a greatest legal value. -/
def addressText (greatest : Nat) (t : List Char) : Option Byte :=
  match number t with
  | some n => if n ≤ greatest then some (BitVec.ofNat 8 n) else none
  | none => none

/-- A line with no argument and no operand. -/
def bareLine (i : Instr) (args : List (List Char)) : Option Instr :=
  match args with
  | [] => some i
  | _ :: _ => none

/-- A line with an operand and no argument; the operand is 0 when it is omitted. -/
def operandLine (make : Word64 → Instr) (args : List (List Char)) : Option Instr :=
  match args with
  | [] => some (make 0#64)
  | [w] => (operandText w).map make
  | _ :: _ :: _ => none

/-- A line with an argument and no operand. -/
def argLine {α : Type} (arg : List Char → Option α) (make : α → Instr) (args : List (List Char)) : Option Instr :=
  match args with
  | [a] => (arg a).map make
  | [] => none
  | _ :: _ :: _ => none

/-- A line with an argument and an operand; the operand is 0 when it is omitted. -/
def argOperandLine {α : Type} (arg : List Char → Option α) (make : α → Word64 → Instr) (args : List (List Char)) :
    Option Instr :=
  match args with
  | [a] => (arg a).map fun x => make x 0#64
  | [a, w] =>
    match arg a, operandText w with
    | some x, some v => some (make x v)
    | _, _ => none
  | [] => none
  | _ :: _ :: _ :: _ => none

/-- The command a mnemonic and its arguments stand for. -/
def mnemonicLine (mnemonic : List Char) (args : List (List Char)) : Option Instr :=
  if mnemonic = ['M', 'C', 'L', 'R'] then bareLine .mclr args
  else if mnemonic = ['M', 'S', 'E', 'T'] then argOperandLine registerText .mset args
  else if mnemonic = ['M', 'G', 'E', 'T'] then argLine registerText .mget args
  else if mnemonic = ['T', 'O', 'N', 'T', 'P'] then operandLine .tontp args
  else if mnemonic = ['F', 'R', 'N', 'T', 'P'] then operandLine .frntp args
  else if mnemonic = ['T', 'W', 'R'] then argOperandLine (addressText 15) .twr args
  else if mnemonic = ['T', 'R', 'D'] then argLine (addressText 15) .trd args
  else if mnemonic = ['T', 'S', 'E', 'T', 'L', 'E', 'N'] then operandLine .tsetlen args
  else if mnemonic = ['R', 'I', 'D', 'S', 'T', 'R'] then bareLine .ridstr args
  else if mnemonic = ['R', 'I', 'D', 'S', 'E', 'T'] then bareLine .ridset args
  else if mnemonic = ['P', 'W', 'R'] then argOperandLine (addressText 255) .pwr args
  else if mnemonic = ['P', 'R', 'D'] then argLine (addressText 47) .prd args
  else if mnemonic = ['P', 'S', 'E', 'T', 'L', 'E', 'N'] then operandLine .psetlen args
  else if mnemonic = ['P', 'A', 'C', 'K'] then bareLine .pack args
  else if mnemonic = ['U', 'N', 'P', 'A', 'C', 'K'] then bareLine .unpack args
  else if mnemonic = ['S', 'R', 'D'] then bareLine .srd args
  else if mnemonic = ['S', 'C', 'L', 'R'] then bareLine .sclr args
  else none

/-- A raw command word, written `0x` and up to four hexadecimal digits. -/
def rawWordText (t : List Char) : Option (BitVec 16) :=
  match t with
  | '0' :: 'x' :: h =>
    match numeral 16 h with
    | some n => if n < 2 ^ 16 then some (BitVec.ofNat 16 n) else none
    | none => none
  | _ => none

/-- The directive `.word 0xNNNN[, operand]`. -/
def wordDirective (args : List (List Char)) : Option Command :=
  match args with
  | [w] => (rawWordText w).map fun c => { cmd := c, wdata := 0#64 }
  | [w, d] =>
    match rawWordText w, operandText d with
    | some c, some v => some { cmd := c, wdata := v }
    | _, _ => none
  | [] => none
  | _ :: _ :: _ :: _ => none

/-- All the values, where every one is there. -/
def allOf {α : Type} : List (Option α) → Option (List α)
  | [] => some []
  | none :: _ => none
  | some x :: xs =>
    match allOf xs with
    | some ys => some (x :: ys)
    | none => none

/-- A byte of `PLOAD`: a number up to 255. -/
def byteText (t : List Char) : Option Byte := addressText 255 t

/-- A decimal rational without a sign: digits, or digits, a point and digits. -/
def unsignedRational (t : List Char) : Option Rat :=
  match splitAtSep '.' t with
  | [whole] => (numeral 10 whole).map fun n => (n : Rat)
  | [whole, frac] =>
    match numeral 10 whole, numeral 10 frac with
    | some n, some d => some ((n : Rat) + (d : Rat) / 10 ^ frac.length)
    | _, _ => none
  | [] => none
  | _ :: _ :: _ :: _ => none

/-- A decimal rational, the `x` of `MSETQ`. -/
def rationalText (t : List Char) : Option Rat :=
  match t with
  | '-' :: u => (unsignedRational u).map fun x => -x
  | _ => unsignedRational t

/-- The double quote around the string of `TLOAD`. -/
def quoteMark : Char := Char.ofNat 0x22

/-- The codes of the ASCII characters between two double quotes. -/
def stringText (t : List Char) : Option (List Byte) :=
  match t with
  | [] => none
  | q :: rest =>
    let body := rest.dropLast
    if q = quoteMark ∧ rest.getLast? = some quoteMark ∧ quoteMark ∉ body ∧ body.all (fun c => c.toNat < 128) then
      some (body.map fun c => BitVec.ofNat 8 c.toNat)
    else none

/-- A line without its comment; a `;` inside double quotes starts none. -/
def withoutComment (quoted : Bool) : List Char → List Char
  | [] => []
  | c :: cs =>
    if c = quoteMark then c :: withoutComment (!quoted) cs
    else if c = ';' ∧ quoted = false then []
    else c :: withoutComment quoted cs

/-- The commands a line's mnemonic stands for: the expansion of a pseudo-instruction (R78), or one command (R77). -/
def expandLine (mnemonic rest : List Char) : Option (List Instr) :=
  let args := if rest = [] then [] else (splitAtSep ',' rest).map stripBlanks
  if mnemonic = ['P', 'L', 'O', 'A', 'D'] then
    match allOf (args.map byteText) with
    | some bs => pload bs
    | none => none
  else if mnemonic = ['T', 'L', 'O', 'A', 'D'] then
    match stringText rest with
    | some bs => tload bs
    | none => none
  else if mnemonic = ['M', 'S', 'E', 'T', 'Q'] then
    match args with
    | [f, x] =>
      match registerText f, rationalText x with
      | some r, some v => (msetq r v).map fun i => [i]
      | _, _ => none
    | _ => none
  else (mnemonicLine mnemonic args).map fun i => [i]

/-- One line of assembler text: no command for a blank or comment line, its commands otherwise; none where the line is not
in the form of R77 and R78. -/
def assembleLine (line : List Char) : Option (List Command) :=
  let code := stripBlanks (withoutComment false line)
  let mnemonic := code.takeWhile fun c => !isBlank c
  let rest := stripBlanks (code.dropWhile fun c => !isBlank c)
  if code = [] then some []
  else if mnemonic = ['.', 'w', 'o', 'r', 'd'] then
    (wordDirective (if rest = [] then [] else (splitAtSep ',' rest).map stripBlanks)).map fun c => [c]
  else (expandLine mnemonic rest).map fun is => is.map encode

/-- Lines one after another. -/
def assembleLines : List (List Char) → Option (List Command)
  | [] => some []
  | l :: ls =>
    match assembleLine l, assembleLines ls with
    | some c, some cs => some (c ++ cs)
    | _, _ => none

end Sys2Proof.Machine
end

