-- ==== Sys2Proof/Safety.lean ====
section
/-! DEFINITION. The terms claims are made in: what an answer is, which pieces of state two states share, the invariant of the
reachable states, and when a run has gone right by the convention of spec 70_reset_and_hazards.md R226. -/

namespace Sys2Proof.Machine

/-- `t` is a state after the host received one response more than in `s`, with no host event taken. -/
def State.answered (s t : State) (r : Resp) (rdata : Word64) : Prop :=
  t.responses = s.responses ++ [{ resp := r, rdata := rdata }] ∧ t.hostEvents = s.hostEvents

/-- Every byte of `PKT` reads the same. -/
def State.samePkt (s t : State) : Prop := ∀ a, t.pkt.read a = s.pkt.read a

/-- Every byte of `TXT` reads the same. -/
def State.sameTxt (s t : State) : Prop := ∀ a, t.txt.read a = s.txt.read a

/-- Both lengths are the same. -/
def State.sameLengths (s t : State) : Prop := t.plen = s.plen ∧ t.tlen = s.tlen

/-- Both flags are the same. -/
def State.sameFlags (s t : State) : Prop := t.sinv = s.sinv ∧ t.sill = s.sill

/-- The whole of 10_state.md R20 is the same: no piece of the block's state differs. -/
def State.sameBlock (s t : State) : Prop :=
  t.msg = s.msg ∧ t.pkt = s.pkt ∧ t.plen = s.plen ∧ t.txt = s.txt ∧ t.tlen = s.tlen ∧ t.sinv = s.sinv ∧ t.sill = s.sill

/-- The invariant of the reachable states: both buffers are in canonical form and hold addresses of theirs alone
(20_memory.md R40, R41), and `TLEN` is at most 16 (10_state.md R30). -/
def State.inv (s : State) : Bool :=
  s.pkt.wf && s.pkt.within Config.pktLen && s.txt.wf && s.txt.within Config.txtMax && decide (s.tlen.toNat ≤ Config.txtMax)

/-- The conventional premise of a run that has gone right: neither flag is set (70_reset_and_hazards.md R226). -/
def State.unflagged (s : State) : Bool := !s.sinv && !s.sill

/-- An event that clears a flag: the reset event, or a command that decodes to `SCLR` (10_state.md R31). -/
def HostEvent.clearsFlags : HostEvent → Bool
  | .reset => true
  | .command c => decide (decode c = .instr .sclr)

/-- 30_encoding.md R74 on the two bytes of a command word, clause by clause: the word is illegal. -/
def illegalWord (op arg : Nat) : Prop :=
  (op ∉ [0x01, 0x02, 0x03, 0x10, 0x11, 0x20, 0x21, 0x22, 0x23, 0x24, 0x30, 0x31, 0x32, 0x33, 0x34, 0x40, 0x41]) ∨
  (op ∈ [0x02, 0x03] ∧ 0x0C < arg) ∨
  (op ∈ [0x20, 0x21] ∧ 0x0F < arg) ∨
  (op = 0x31 ∧ 0x2F < arg) ∨
  (op ∈ [0x01, 0x10, 0x11, 0x22, 0x23, 0x24, 0x32, 0x33, 0x34, 0x40, 0x41] ∧ arg ≠ 0x00)

end Sys2Proof.Machine
end

