-- ==== Sys2Proof/Certificates/Slice0/Obligations.lean ====
section
/-! DEFINITION. The statements for the provers, one `def Obligations.<Name> : Prop` each, in the order of OBLIGATIONS.json.
Where a statement has the premise `s.inv`, a state outside the invariant could break it; the invariant holds at reset
(ResetMeetsInvariant) and every step keeps it (StepKeepsInvariant). -/

open Sys2Proof Sys2Proof.Machine

/-! ### Encoding -/

/-- A word written out from spec 30_encoding.md R73 for each family decodes to its command, whatever the operand; and the
three words of R77's examples. -/
def Obligations.SampleWordsDecode : Prop :=
  (∀ w, decode { cmd := 0x0100#16, wdata := w } = .instr .mclr) ∧
  (∀ w, decode { cmd := 0x0201#16, wdata := w } = .instr (.mset .vn w)) ∧
  (∀ w, decode { cmd := 0x030C#16, wdata := w } = .instr (.mget .xmtts)) ∧
  (∀ w, decode { cmd := 0x1000#16, wdata := w } = .instr (.tontp w)) ∧
  (∀ w, decode { cmd := 0x200F#16, wdata := w } = .instr (.twr 0x0F#8 w)) ∧
  (∀ w, decode { cmd := 0x3128#16, wdata := w } = .instr (.prd 40#8)) ∧
  (∀ w, decode { cmd := 0x30FF#16, wdata := w } = .instr (.pwr 0xFF#8 w)) ∧
  (∀ w, decode { cmd := 0x4000#16, wdata := w } = .instr .srd)

/-- Decoding the encoding of any well-formed command gives it back, every operand at every value. -/
def Obligations.DecodeOfEncode : Prop :=
  ∀ i : Instr, i.wellFormed = true → decode (encode i) = .instr i

/-- What decodes to a command is well-formed and is that command's own word; the operand is the command's, or the command
reads none and every operand decodes to it (R71). -/
def Obligations.EncodeOfDecode : Prop :=
  ∀ (c : Command) (i : Instr), decode c = .instr i →
    i.wellFormed = true ∧ (encode i).cmd = c.cmd ∧
    ((encode i).wdata = c.wdata ∨ ∀ w, decode { cmd := c.cmd, wdata := w } = .instr i)

/-- R74: a command word raises IllegalCommand exactly when one of the clauses (a) to (e) holds of it, whatever the operand and
the state; and 373 of the 65536 words are legal. -/
def Obligations.IllegalWordsExactly : Prop :=
  (∀ (s : State) (c : Command) (rest : List HostEvent), s.hostEvents = .command c :: rest →
    ∃ t r, step s = .next t ∧ t.responses = s.responses ++ [r] ∧
      (r.resp = .illegalCommand ↔ illegalWord c.op.toNat c.arg.toNat)) ∧
  ((List.range 256).map fun op => (List.range 256).countP fun arg => (decodeTableWord 16 (op * 256 + arg)).isSome).sum = 373

/-! ### One step -/

/-- Where the host's next event is a command that decodes to a well-formed `i`, the step is `exec` of `i` at the state with
that event taken. -/
def Obligations.StepRunsDecodedCommand : Prop :=
  ∀ (s : State) (c : Command) (rest : List HostEvent) (i : Instr),
    s.hostEvents = .command c :: rest → decode c = .instr i →
    i.wellFormed = true ∧ step s = exec i { s with hostEvents := rest }

/-- R202: an illegal command word answers code 2 with data 0, sets `SILL`, and changes nothing else. -/
def Obligations.IllegalCommandEffects : Prop :=
  Resp.illegalCommand.code = 2#2 ∧
  ∀ (s : State) (c : Command) (rest : List HostEvent),
    s.hostEvents = .command c :: rest → illegalWord c.op.toNat c.arg.toNat →
    step s = .next { s with
      sill := true
      hostEvents := rest
      responses := s.responses ++ [{ resp := .illegalCommand, rdata := 0#64 }] }

/-- R33: after reset every bit of state is zero: so is the state the machine starts in, and the reset event brings any state
to it; what the host is still to send and what it has received stay (log entry 2). -/
def Obligations.ResetZeroesEverything : Prop :=
  ∀ (s : State) (rest : List HostEvent), s.hostEvents = .reset :: rest →
    ∃ t, step s = .next t ∧ t.hostEvents = rest ∧ t.responses = s.responses ∧
      ∀ u : State, u = t ∨ u = State.reset →
        (∀ f, (u.msg.get f).toNat = 0) ∧ (∀ a, u.pkt.read a = 0x00#8) ∧ u.plen.toNat = 0 ∧
        (∀ a, u.txt.read a = 0x00#8) ∧ u.tlen.toNat = 0 ∧ u.sinv = false ∧ u.sill = false

/-- With nothing more from the host the block is idle and keeps all its state (R214). -/
def Obligations.IdleKeepsState : Prop :=
  ∀ s : State, s.hostEvents = [] → step s = .next s

/-- Every step keeps the invariant: both buffers canonical and inside their address spaces (R40, R41), `TLEN` at most 16
(R30). -/
def Obligations.StepKeepsInvariant : Prop :=
  ∀ s t : State, s.inv = true → step s = .next t → t.inv = true

/-- The state after reset meets the invariant, whatever the host is going to send and has received. -/
def Obligations.ResetMeetsInvariant : Prop :=
  ∀ (events : List HostEvent) (received : List Response),
    State.inv { State.reset with hostEvents := events, responses := received } = true

/-- R200: every command answers exactly once; InvalidPacket comes only of the word of `UNPACK` with `PLEN` below 48 and
IllegalCommand of exactly the illegal words; each failure sets its flag; code 3 is never produced. -/
def Obligations.ResponseCodesByCause : Prop :=
  (Resp.ok.code = 0#2 ∧ Resp.invalidPacket.code = 1#2 ∧ Resp.illegalCommand.code = 2#2) ∧
  ∀ (s : State) (c : Command) (rest : List HostEvent), s.hostEvents = .command c :: rest →
    ∃ t r, step s = .next t ∧ t.hostEvents = rest ∧ t.responses = s.responses ++ [r] ∧ r.resp.code ≠ 3#2 ∧
      (r.resp = .invalidPacket ↔ c.cmd = 0x3400#16 ∧ s.plen.toNat < 48) ∧
      (r.resp = .illegalCommand ↔ illegalWord c.op.toNat c.arg.toNat) ∧
      (r.resp = .invalidPacket → t.sinv = true) ∧ (r.resp = .illegalCommand → t.sill = true)

/-- R207: the state after a failed command is the state before it with one sticky flag set, and its `RDATA` is 0. -/
def Obligations.FailureIsPrecise : Prop :=
  ∀ (s t : State) (c : Command) (rest : List HostEvent) (r : Response),
    s.hostEvents = .command c :: rest → step s = .next t → t.responses = s.responses ++ [r] → r.resp ≠ .ok →
    r.rdata = 0#64 ∧
    (t = { s with sinv := true, hostEvents := rest, responses := s.responses ++ [r] } ∨
     t = { s with sill := true, hostEvents := rest, responses := s.responses ++ [r] })

/-- R31: a command other than `SCLR` changes a flag only by failing: `SINV` after it is set exactly when it was set before or
the answer is InvalidPacket, `SILL` exactly when it was set before or the answer is IllegalCommand. -/
def Obligations.FlagsAreSticky : Prop :=
  ∀ (s : State) (c : Command) (rest : List HostEvent),
    s.hostEvents = .command c :: rest → decode c ≠ .instr .sclr →
    ∃ t r, step s = .next t ∧ t.responses = s.responses ++ [r] ∧
      (t.sinv = true ↔ s.sinv = true ∨ r.resp = .invalidPacket) ∧
      (t.sill = true ↔ s.sill = true ∨ r.resp = .illegalCommand)

/-- R226: from any state with both flags 0, over any number of steps that take no `SCLR` and no reset event, both flags are 0
at the end exactly when every response since was OK. -/
def Obligations.FlagsTellOfEveryFailure : Prop :=
  ∀ (n : Nat) (s t : State), s.unflagged = true →
    (∀ e ∈ s.hostEvents.take n, e.clearsFlags = false) → core.run n s = .next t →
    (t.unflagged = true ↔ ∀ r ∈ t.responses.drop s.responses.length, r.resp = .ok)

/-- R183: no command's effect depends on anything but the state of R20: two states that agree on it answer a command alike and
agree on it afterwards, whatever came before. -/
def Obligations.StateAloneDecidesEffect : Prop :=
  ∀ (s s' : State) (c : Command) (rest rest' : List HostEvent), s.sameBlock s' →
    s.hostEvents = .command c :: rest → s'.hostEvents = .command c :: rest' →
    ∃ t t' r, step s = .next t ∧ step s' = .next t' ∧ t.sameBlock t' ∧
      t.responses = s.responses ++ [r] ∧ t'.responses = s'.responses ++ [r]

/-- R31: the flags are read only by `SRD`: for every other command, states that differ in the flags alone give the same
response and agree afterwards on everything but the flags. -/
def Obligations.FlagsReadBySrdAlone : Prop :=
  ∀ (i : Instr) (s : State) (inv ill : Bool), i ≠ .srd →
    ∃ t t' r, exec i s = .next t ∧ exec i { s with sinv := inv, sill := ill } = .next t' ∧
      t.responses = s.responses ++ [r] ∧ t'.responses = s.responses ++ [r] ∧
      t' = { t with sinv := t'.sinv, sill := t'.sill }

/-- R29, R30: `PLEN` is read only by `UNPACK` and `SRD`, `TLEN` only by `RIDSET` and `SRD`: for every other command a state with
other lengths gives the same response and the same registers, bytes and flags. -/
def Obligations.LengthsReadByFew : Prop :=
  ∀ (i : Instr) (s : State) (p : BitVec 16) (n : BitVec 5), i ≠ .srd → i ≠ .unpack → i ≠ .ridset →
    ∃ t t' r, exec i s = .next t ∧ exec i { s with plen := p, tlen := n } = .next t' ∧
      t.responses = s.responses ++ [r] ∧ t'.responses = s.responses ++ [r] ∧
      t' = { t with plen := t'.plen, tlen := t'.tlen }

/-- R21, R29, R30: who writes what: a message register is changed only by `MCLR`, `MSET`, `UNPACK`, `RIDSET`; `PKT` only by `PWR`
and `PACK`; `PLEN` only by `PSETLEN` and `PACK`; `TXT` only by `TWR` and `RIDSTR`; `TLEN` only by `TSETLEN` and `RIDSTR`. -/
def Obligations.WritersOfEachPiece : Prop :=
  ∀ (i : Instr) (s : State), ∃ t, exec i s = .next t ∧ t.hostEvents = s.hostEvents ∧
    (t.msg ≠ s.msg → i = .mclr ∨ (∃ f w, i = .mset f w) ∨ i = .unpack ∨ i = .ridset) ∧
    (t.pkt ≠ s.pkt → (∃ a w, i = .pwr a w) ∨ i = .pack) ∧
    (t.plen ≠ s.plen → (∃ w, i = .psetlen w) ∨ i = .pack) ∧
    (t.txt ≠ s.txt → (∃ a w, i = .twr a w) ∨ i = .ridstr) ∧
    (t.tlen ≠ s.tlen → (∃ w, i = .tsetlen w) ∨ i = .ridstr)

/-- R51: `PRD`, `TRD`, `MGET` and `SRD` change no state, and repeating one returns the same `RDATA`; repeating a `PWR` leaves the
same packet; `UNPACK` leaves `PKT` and `PLEN`; `PACK` leaves `MSG`. -/
def Obligations.ReadsHaveNoEffect : Prop :=
  (∀ (i : Instr) (s : State), ((∃ a, i = .prd a) ∨ (∃ a, i = .trd a) ∨ (∃ f, i = .mget f) ∨ i = .srd) →
    i.wellFormed = true →
    ∃ t u d, exec i s = .next t ∧ s.answered t .ok d ∧ s.sameBlock t ∧
      exec i t = .next u ∧ t.answered u .ok d ∧ s.sameBlock u) ∧
  (∀ (a : Byte) (w : Word64) (s : State), s.inv = true →
    ∃ t u, exec (.pwr a w) s = .next t ∧ exec (.pwr a w) t = .next u ∧ t.sameBlock u) ∧
  (∀ s : State, ∃ t, exec .unpack s = .next t ∧ s.samePkt t ∧ t.plen = s.plen) ∧
  (∀ s : State, ∃ t, exec .pack s = .next t ∧ t.msg = s.msg)

/-! ### Big-endian access -/

/-- R44 to R48: after a 32-bit write, the byte at offset i is byte i of the word from the most significant, no other byte
changes, and the 32-bit read gives the word; the same for 64 bits; and a 64-bit read over two adjacent 32-bit words gives
the two in order. -/
def Obligations.BigEndianAccess : Prop :=
  ∀ (m : Memory) (off : Nat), m.wf = true →
    (∀ v : Word32,
      (∀ i < 4, ((m.be32Write off v).read (off + i)).toNat = v.toNat / 2 ^ (8 * (3 - i)) % 256) ∧
      (∀ x, x < off ∨ off + 4 ≤ x → (m.be32Write off v).read x = m.read x) ∧
      (m.be32Write off v).be32Read off = v) ∧
    (∀ v : Word64,
      (∀ i < 8, ((m.be64Write off v).read (off + i)).toNat = v.toNat / 2 ^ (8 * (7 - i)) % 256) ∧
      (∀ x, x < off ∨ off + 8 ≤ x → (m.be64Write off v).read x = m.read x) ∧
      (m.be64Write off v).be64Read off = v) ∧
    (∀ v v' : Word32, ((m.be32Write off v).be32Write (off + 4) v').be64Read off = v ++ v')

/-! ### Field codec -/

/-- R108: `MCLR` is the word 0x0100, legal with no other argument; it sets every register to 0 and changes nothing else. -/
def Obligations.MclrZeroesRegisters : Prop :=
  (∀ (c : Command), c.op = 0x01#8 →
    (c.arg = 0x00#8 → decode c = .instr .mclr) ∧ (c.arg ≠ 0x00#8 → decode c = .illegal .argumentNotZero)) ∧
  ∀ s : State, ∃ t, exec .mclr s = .next t ∧ s.answered t .ok 0#64 ∧
    (∀ f, (t.msg.get f).toNat = 0) ∧
    s.samePkt t ∧ s.sameTxt t ∧ s.sameLengths t ∧ s.sameFlags t

/-- R21, R109: `MSET f` is the word 0x0200 + f for f from 0 to 12, each number naming the register and width of R21's table; it
stores the operand modulo 2 to the register's width, and changes nothing else. -/
def Obligations.MsetStoresLowBits : Prop :=
  (∀ (c : Command), c.op = 0x02#8 →
    (∀ f : MsgReg, c.arg = f.selector → decode c = .instr (.mset f c.wdata)) ∧
    (∀ row ∈ ([(0x00#8, .li, 2), (0x01#8, .vn, 3), (0x02#8, .mode, 3), (0x03#8, .stratum, 8),
      (0x04#8, .poll, 8), (0x05#8, .prec, 8), (0x06#8, .rdelay, 32), (0x07#8, .rdisp, 32), (0x08#8, .refid, 32),
      (0x09#8, .refts, 64), (0x0A#8, .orgts, 64), (0x0B#8, .rects, 64), (0x0C#8, .xmtts, 64)] : List (Byte × MsgReg × Nat)),
      row.2.1.width = row.2.2 ∧ (c.arg = row.1 → decode c = .instr (.mset row.2.1 c.wdata))) ∧
    (0x0C < c.arg.toNat → decode c = .illegal .noSuchRegister)) ∧
  ∀ (f : MsgReg) (w : Word64) (s : State), ∃ t, exec (.mset f w) s = .next t ∧ s.answered t .ok 0#64 ∧
    (t.msg.get f).toNat = w.toNat % 2 ^ f.width ∧ (∀ g, g ≠ f → t.msg.get g = s.msg.get g) ∧
    s.samePkt t ∧ s.sameTxt t ∧ s.sameLengths t ∧ s.sameFlags t

/-- R21, R110: `MGET f` is the word 0x0300 + f for f from 0 to 12, each number naming the register and width of R21's table; it
returns the register as a signed number for `POLL`, `PREC`, `RDELAY` and the timestamps, as an unsigned one for the others, and
changes nothing. -/
def Obligations.MgetReturnsValue : Prop :=
  (∀ (c : Command), c.op = 0x03#8 →
    (∀ f : MsgReg, c.arg = f.selector → decode c = .instr (.mget f)) ∧
    (∀ row ∈ ([(0x00#8, .li, 2), (0x01#8, .vn, 3), (0x02#8, .mode, 3), (0x03#8, .stratum, 8),
      (0x04#8, .poll, 8), (0x05#8, .prec, 8), (0x06#8, .rdelay, 32), (0x07#8, .rdisp, 32), (0x08#8, .refid, 32),
      (0x09#8, .refts, 64), (0x0A#8, .orgts, 64), (0x0B#8, .rects, 64), (0x0C#8, .xmtts, 64)] : List (Byte × MsgReg × Nat)),
      row.2.1.width = row.2.2 ∧ (c.arg = row.1 → decode c = .instr (.mget row.2.1))) ∧
    (0x0C < c.arg.toNat → decode c = .illegal .noSuchRegister)) ∧
  ∀ (f : MsgReg) (s : State), ∃ t d, exec (.mget f) s = .next t ∧ s.answered t .ok d ∧ s.sameBlock t ∧
    (if f ∈ [.poll, .prec, .rdelay, .refts, .orgts, .rects, .xmtts] then d.toInt = (s.msg.get f).toInt
     else d.toNat = (s.msg.get f).toNat)

/-- R110's corner case: `MGET f` straight after `MSET f, w` returns `w` cut to the register's width and then extended. -/
def Obligations.MgetAfterMset : Prop :=
  ∀ (f : MsgReg) (w : Word64) (s : State), ∃ t u d,
    exec (.mset f w) s = .next t ∧ exec (.mget f) t = .next u ∧ t.answered u .ok d ∧
    (if f ∈ [.poll, .prec, .rdelay, .refts, .orgts, .rects, .xmtts] then d.toInt = Int.bmod w.toNat (2 ^ f.width)
     else d.toNat = w.toNat % 2 ^ f.width)

/-- R100, R101: byte 0 is LI * 64 + VN * 8 + MODE, unpacking takes the three fields by shift and mask, and the two are
inverse to each other. -/
def Obligations.ByteZeroFields : Prop :=
  (∀ (li : BitVec 2) (vn mode : BitVec 3), (packByte0 li vn mode).toNat = li.toNat * 64 + vn.toNat * 8 + mode.toNat ∧
    unpackByte0 (packByte0 li vn mode) = (li, vn, mode)) ∧
  (∀ b : Byte, (unpackByte0 b).1.toNat = b.toNat / 64 % 4 ∧ (unpackByte0 b).2.1.toNat = b.toNat / 8 % 8 ∧
    (unpackByte0 b).2.2.toNat = b.toNat % 8 ∧
    packByte0 (unpackByte0 b).1 (unpackByte0 b).2.1 (unpackByte0 b).2.2 = b)

/-- R103: the value of a word is its signed or unsigned integer over 65536; the two readings agree with bit 31 clear and differ
by 65536 with bit 31 set. -/
def Obligations.FixedPointValues : Prop :=
  ∀ w : Word32, fxValS w * 65536 = w.toInt ∧ fxValU w * 65536 = w.toNat ∧
    fxValU w = if w.getLsbD 31 then fxValS w + 65536 else fxValS w

/-- R105, R106: the value of root delay is the byte-weighted sum with byte 4 signed, the value of root dispersion the same sum
with all four bytes unsigned. -/
def Obligations.ByteWeightedDecode : Prop :=
  ∀ b0 b1 b2 b3 : Byte,
    fxValS (fxDecodeS b0 b1 b2 b3) = (s8 b0 : Rat) * 256 + u8 b1 + (u8 b2 : Rat) / 256 + (u8 b3 : Rat) / 65536 ∧
    fxValU (fxDecodeU b0 b1 b2 b3) = (u8 b0 : Rat) * 256 + u8 b1 + (u8 b2 : Rat) / 256 + (u8 b3 : Rat) / 65536

/-- R112 (2), (3), (4): quantising a word's value gives the word; inside its range a quantised value is within 1/131072 of the
original; for every rational each quantiser is so up to a multiple of 65536 seconds, which is how it wraps outside. -/
def Obligations.QuantiserLaws : Prop :=
  (∀ w : Word32, fxQuantS (fxValS w) = w ∧ fxQuantU (fxValU w) = w) ∧
  (∀ x : Rat, -32768 - 1 / 131072 ≤ x → x < 32768 - 1 / 131072 → |fxValS (fxQuantS x) - x| ≤ 1 / 131072) ∧
  (∀ x : Rat, 0 - 1 / 131072 ≤ x → x < 65536 - 1 / 131072 → |fxValU (fxQuantU x) - x| ≤ 1 / 131072) ∧
  (∀ x : Rat, ∃ k : Int, |fxValS (fxQuantS x) + k * 65536 - x| ≤ 1 / 131072) ∧
  (∀ x : Rat, ∃ k : Int, |fxValU (fxQuantU x) + k * 65536 - x| ≤ 1 / 131072)

/-! ### Timestamp converter -/

/-- R122: from 1900-01-01 on, the seconds word is the seconds since the era's base, cut to 32 bits, with the era bit set in
era 0, and the fraction is the milliseconds scaled down to 2^-32 seconds. -/
def Obligations.ToNtpTimeFrom1900 : Prop :=
  ∀ t : Int, -2208988800000 ≤ t →
    let base := t - (if t < 2085978496000 then -2208988800000 else 2085978496000)
    (toNtpTime t).extractLsb' 32 32 =
      (BitVec.ofInt 32 (base / 1000) ||| if t < 2085978496000 then 0x80000000#32 else 0x00000000#32) ∧
    (((toNtpTime t).extractLsb' 0 32).toNat : Int) = base % 1000 * 2 ^ 32 / 1000

/-- R124: before 1900, with whole seconds the seconds word is the truncated quotient with the era bit set and the fraction is 0;
otherwise the seconds word is all ones and the fraction is 2^32 less the scaled milliseconds. That the value is this one is the
spec's decision and the model's choice (log entry 8, D8). -/
def Obligations.ToNtpTimeBefore1900 : Prop :=
  ∀ t : Int, t < -2208988800000 →
    let below := -2208988800000 - t
    (below % 1000 = 0 → (toNtpTime t).extractLsb' 32 32 = BitVec.ofInt 32 (-(below / 1000)) ||| 0x80000000#32 ∧
      (toNtpTime t).extractLsb' 0 32 = 0#32) ∧
    (below % 1000 ≠ 0 → (toNtpTime t).extractLsb' 32 32 = 0xFFFFFFFF#32 ∧
      (((toNtpTime t).extractLsb' 0 32).toNat : Int) = 2 ^ 32 - below % 1000 * 2 ^ 32 / 1000)

/-- R120 to R124, R129: the era bit is set below the boundary and clear from it on up to `DOM_HI`; the two timestamps at the
boundary are those of R129. Before 1900 the bit rests on the arithmetic of R124, which is the spec's decision and the model's
choice (log entry 8, D8). -/
def Obligations.EraBitAtTheBoundary : Prop :=
  (∀ t : Int, t < 4233462144000 → ((toNtpTime t).getLsbD 63 = true ↔ t < 2085978496000)) ∧
  toNtpTime 2085978496000 = 0x0000000000000000#64 ∧ toNtpTime 2085978495999 = 0xFFFFFFFFFFBE76C8#64

/-- R125, R126: the milliseconds of a timestamp are the era's base, the seconds and the fraction rounded with ties upward; the
result lies in `DOM_LO` to `DOM_HI`, and the rounded fraction is 0 to 1000, being 1000 from 0xFFDF3B65 on. -/
def Obligations.FromNtpTimeValue : Prop :=
  ∀ ts : Word64,
    let sec := (ts.extractLsb' 32 32).toNat
    let frac := (ts.extractLsb' 0 32).toNat
    let fm := roundHalfUp ((1000 * frac : Rat) / 2 ^ 32)
    fromNtpTime ts = (if ts.getLsbD 63 = false then 2085978496000 else -2208988800000) + sec * 1000 + fm ∧
    -61505152000 ≤ fromNtpTime ts ∧ fromNtpTime ts ≤ 4233462144000 ∧
    0 ≤ fm ∧ fm ≤ 1000 ∧ (fm = 1000 ↔ 0xFFDF3B65 ≤ frac)

/-- R127: encoding and decoding an epoch-millisecond value gives it back on the representable domain, 2^31 seconds later from
1900 to the domain, and the one domain value of the same residue from `DOM_HI` on. -/
def Obligations.MillisecondsRoundTrip : Prop :=
  (∀ t : Int, -61505152000 ≤ t → t < 4233462144000 → fromNtpTime (toNtpTime t) = t) ∧
  (∀ t : Int, -2208988800000 ≤ t → t < -61505152000 → fromNtpTime (toNtpTime t) = t + 2147483648000) ∧
  (∀ t : Int, 4233462144000 ≤ t →
    -61505152000 ≤ fromNtpTime (toNtpTime t) ∧ fromNtpTime (toNtpTime t) < 4233462144000 ∧
    (4294967296000 : Int) ∣ t - fromNtpTime (toNtpTime t) ∧
    (t < 4233462144000 + 2147483648000 → fromNtpTime (toNtpTime t) = t - 4294967296000))

/-- R128: decoding and encoding a timestamp gives it back exactly when its fraction is one of the 1000 of R122; otherwise the
fraction is that of the rounded milliseconds, with a carry into the seconds when they are 1000. -/
def Obligations.TimestampRoundTrip : Prop :=
  ∀ ts : Word64,
    let frac := (ts.extractLsb' 0 32).toNat
    let fm := (1000 * frac + 2 ^ 31) / 2 ^ 32
    let back := toNtpTime (fromNtpTime ts)
    (back = ts ↔ ∃ r < 1000, frac = r * 2 ^ 32 / 1000) ∧
    (fm < 1000 → back.extractLsb' 32 32 = ts.extractLsb' 32 32 ∧
      (back.extractLsb' 0 32).toNat = fm * 2 ^ 32 / 1000) ∧
    (fm = 1000 → back.extractLsb' 32 32 = ts.extractLsb' 32 32 + 1#32 ∧ back.extractLsb' 0 32 = 0#32)

/-- R130, R131: `TONTP` returns the timestamp of its operand read signed, `FRNTP` the milliseconds of its operand in two's
complement; neither changes anything, and both refuse an argument. -/
def Obligations.ConverterCommands : Prop :=
  (∀ c : Command, c.op = 0x10#8 →
    (c.arg = 0x00#8 → decode c = .instr (.tontp c.wdata)) ∧ (c.arg ≠ 0x00#8 → decode c = .illegal .argumentNotZero)) ∧
  (∀ c : Command, c.op = 0x11#8 →
    (c.arg = 0x00#8 → decode c = .instr (.frntp c.wdata)) ∧ (c.arg ≠ 0x00#8 → decode c = .illegal .argumentNotZero)) ∧
  (∀ (w : Word64) (s : State), ∃ t d, exec (.tontp w) s = .next t ∧ s.answered t .ok d ∧ s.sameBlock t ∧
    d = toNtpTime w.toInt) ∧
  (∀ (w : Word64) (s : State), ∃ t d, exec (.frntp w) s = .next t ∧ s.answered t .ok d ∧ s.sameBlock t ∧
    d.toInt = fromNtpTime w)

/-! ### Reference identifier -/

/-- R142 to R145: the text of a reference identifier by stratum and version. Stratum 0 or 1: the bytes before the trailing trim
bytes. Else version 3: the four decimal numerals joined by dots. Else version 4: the OPEN string, at most 16 bytes of it
(whatever the parameter is, log entry 1). Else the empty string. -/
def Obligations.RefIdTextByCase : Prop :=
  ∀ (b0 b1 b2 b3 : Byte) (stratum vn : Nat),
    let bytes := [b0, b1, b2, b3]
    let text := refIdToText b0 b1 b2 b3 stratum vn
    let numeral := fun b : Byte => (Nat.toDigits 10 b.toNat).map fun c => BitVec.ofNat 8 c.toNat
    (stratum ≤ 1 → ∃ k ≤ 4, text = bytes.take k ∧ (∀ b ∈ bytes.drop k, b.toNat ≤ 0x20) ∧
      (∀ b ∈ (bytes.take k).getLast?, 0x20 < b.toNat)) ∧
    (2 ≤ stratum → vn = 3 → text = [0x2E#8].intercalate (bytes.map numeral)) ∧
    (2 ≤ stratum → vn = 4 → text = (Config.refidV4Format b0 b1 b2 b3).take 16) ∧
    (2 ≤ stratum → vn ≠ 3 → vn ≠ 4 → text = [])

/-- R151: the four bytes from a text: `a` to `z` in upper case, trim bytes dropped at both ends, cut to four, padded with nulls. -/
def Obligations.RefIdFromTextRule : Prop :=
  ∀ text : List Byte,
    let upper := text.map fun b => if 0x61 ≤ b.toNat ∧ b.toNat ≤ 0x7A then BitVec.ofNat 8 (b.toNat - 0x20) else b
    ∃ lead core tail : List Byte, upper = lead ++ core ++ tail ∧
      (∀ b ∈ lead, b.toNat ≤ 0x20) ∧ (∀ b ∈ tail, b.toNat ≤ 0x20) ∧
      (∀ b ∈ core.head?, 0x20 < b.toNat) ∧ (∀ b ∈ core.getLast?, 0x20 < b.toNat) ∧
      refIdFromText text = (core ++ [0x00#8, 0x00#8, 0x00#8, 0x00#8]).take 4

/-- R152: four bytes that are k bytes neither trim nor lower case and then nulls come back from their own text at stratum 0
and 1; the dotted-decimal text of 192.168.1.1 gives the characters "192." and not the address. -/
def Obligations.RefIdTextInverse : Prop :=
  (∀ (b0 b1 b2 b3 : Byte) (stratum vn k : Nat), stratum ≤ 1 → k ≤ 4 →
    (∀ b ∈ [b0, b1, b2, b3].take k, 0x20 < b.toNat ∧ (b.toNat < 0x61 ∨ 0x7A < b.toNat)) →
    (∀ b ∈ [b0, b1, b2, b3].drop k, b = 0x00#8) →
    refIdFromText (refIdToText b0 b1 b2 b3 stratum vn) = [b0, b1, b2, b3]) ∧
  refIdFromText (refIdToText 0xC0#8 0xA8#8 0x01#8 0x01#8 2 3) = [0x31#8, 0x39#8, 0x32#8, 0x2E#8]

/-- R146: `TWR a` for a from 0 to 15 stores the low byte of its operand at `TXT[a]` and changes nothing else; above 15 the word
is illegal and the command, taken as it stands, raises IllegalCommand. -/
def Obligations.TwrStoresByte : Prop :=
  (∀ c : Command, c.op = 0x20#8 →
    (c.arg.toNat ≤ 15 → decode c = .instr (.twr c.arg c.wdata)) ∧ (15 < c.arg.toNat → decode c = .illegal .noSuchTextByte)) ∧
  (∀ (a : Byte) (w : Word64) (s : State), s.inv = true → a.toNat ≤ 15 →
    ∃ t, exec (.twr a w) s = .next t ∧ s.answered t .ok 0#64 ∧
      (t.txt.read a.toNat).toNat = w.toNat % 256 ∧ (∀ x, x ≠ a.toNat → t.txt.read x = s.txt.read x) ∧
      t.msg = s.msg ∧ s.samePkt t ∧ s.sameLengths t ∧ s.sameFlags t) ∧
  (∀ (a : Byte) (w : Word64) (s : State), 15 < a.toNat →
    ∃ t, exec (.twr a w) s = .next t ∧ s.answered t .illegalCommand 0#64 ∧
      s.sameBlock { t with sill := s.sill } ∧ t.sill = true)

/-- R147: `TRD a` for a from 0 to 15 returns `TXT[a]` zero-extended, whatever `TLEN` is, and changes nothing; above 15 the word is
illegal and the command, taken as it stands, raises IllegalCommand. -/
def Obligations.TrdReturnsByte : Prop :=
  (∀ c : Command, c.op = 0x21#8 →
    (c.arg.toNat ≤ 15 → decode c = .instr (.trd c.arg)) ∧ (15 < c.arg.toNat → decode c = .illegal .noSuchTextByte)) ∧
  (∀ (a : Byte) (s : State), a.toNat ≤ 15 →
    ∃ t d, exec (.trd a) s = .next t ∧ s.answered t .ok d ∧ d.toNat = (s.txt.read a.toNat).toNat ∧ s.sameBlock t) ∧
  (∀ (a : Byte) (s : State), 15 < a.toNat →
    ∃ t, exec (.trd a) s = .next t ∧ s.answered t .illegalCommand 0#64 ∧
      s.sameBlock { t with sill := s.sill } ∧ t.sill = true)

/-- R148: `TSETLEN` sets `TLEN` to the operand, or to 16 where it is greater, and changes nothing else. -/
def Obligations.TsetlenSaturates : Prop :=
  (∀ c : Command, c.op = 0x22#8 →
    (c.arg = 0x00#8 → decode c = .instr (.tsetlen c.wdata)) ∧ (c.arg ≠ 0x00#8 → decode c = .illegal .argumentNotZero)) ∧
  ∀ (w : Word64) (s : State), ∃ t, exec (.tsetlen w) s = .next t ∧ s.answered t .ok 0#64 ∧
    t.tlen.toNat = (if w.toNat ≤ 16 then w.toNat else 16) ∧
    t.msg = s.msg ∧ s.samePkt t ∧ s.sameTxt t ∧ t.plen = s.plen ∧ s.sameFlags t

/-- R149: `RIDSTR` writes the text of `REFID`, `STRATUM`, `VN` into `TXT`, nulls after it up to byte 15, its length into `TLEN`, and
changes nothing else. -/
def Obligations.RidstrWritesText : Prop :=
  (∀ c : Command, c.op = 0x23#8 →
    (c.arg = 0x00#8 → decode c = .instr .ridstr) ∧ (c.arg ≠ 0x00#8 → decode c = .illegal .argumentNotZero)) ∧
  ∀ s : State, s.inv = true →
    let text := refIdToText (s.msg.refid.extractLsb' 24 8) (s.msg.refid.extractLsb' 16 8) (s.msg.refid.extractLsb' 8 8)
      (s.msg.refid.extractLsb' 0 8) s.msg.stratum.toNat s.msg.vn.toNat
    ∃ t, exec .ridstr s = .next t ∧ s.answered t .ok 0#64 ∧
      t.tlen.toNat = text.length ∧ text.length ≤ 16 ∧
      (∀ a < 16, t.txt.read a = if h : a < text.length then text[a] else 0x00#8) ∧
      (∀ a, 16 ≤ a → t.txt.read a = s.txt.read a) ∧
      t.msg = s.msg ∧ s.samePkt t ∧ t.plen = s.plen ∧ s.sameFlags t

/-- R150: `RIDSET` sets `REFID` to the four bytes of `RefIdFromText` of `TXT[0]` to `TXT[TLEN-1]`, byte 0 in bits 31:24, and changes
nothing else; bytes at or past `TLEN` are not read. -/
def Obligations.RidsetStoresIdentifier : Prop :=
  (∀ c : Command, c.op = 0x24#8 →
    (c.arg = 0x00#8 → decode c = .instr .ridset) ∧ (c.arg ≠ 0x00#8 → decode c = .illegal .argumentNotZero)) ∧
  ∀ s : State,
    ∃ t, exec .ridset s = .next t ∧ s.answered t .ok 0#64 ∧
      [t.msg.refid.extractLsb' 24 8, t.msg.refid.extractLsb' 16 8, t.msg.refid.extractLsb' 8 8,
        t.msg.refid.extractLsb' 0 8] = refIdFromText ((List.range s.tlen.toNat).map s.txt.read) ∧
      (∀ f, f ≠ .refid → t.msg.get f = s.msg.get f) ∧
      s.samePkt t ∧ s.sameTxt t ∧ s.sameLengths t ∧ s.sameFlags t

/-! ### Packet -/

/-- R165: `PWR a` stores the low byte of its operand at `PKT[a]` for a up to 47 and nothing for a from 48 to 255; either way it
answers OK and changes nothing else. -/
def Obligations.PwrStoresByte : Prop :=
  (∀ c : Command, c.op = 0x30#8 → decode c = .instr (.pwr c.arg c.wdata)) ∧
  ∀ (a : Byte) (w : Word64) (s : State), s.inv = true →
    ∃ t, exec (.pwr a w) s = .next t ∧ s.answered t .ok 0#64 ∧
      (if a.toNat ≤ 47 then (t.pkt.read a.toNat).toNat = w.toNat % 256 ∧ ∀ x, x ≠ a.toNat → t.pkt.read x = s.pkt.read x
       else s.samePkt t) ∧
      t.msg = s.msg ∧ s.sameTxt t ∧ s.sameLengths t ∧ s.sameFlags t

/-- R166: `PRD a` for a up to 47 returns `PKT[a]` zero-extended, whatever `PLEN` is, and changes nothing; above 47 the word is
illegal and the command, taken as it stands, raises IllegalCommand. -/
def Obligations.PrdReturnsByte : Prop :=
  (∀ c : Command, c.op = 0x31#8 →
    (c.arg.toNat ≤ 47 → decode c = .instr (.prd c.arg)) ∧ (47 < c.arg.toNat → decode c = .illegal .noSuchPacketByte)) ∧
  (∀ (a : Byte) (s : State), a.toNat ≤ 47 →
    ∃ t d, exec (.prd a) s = .next t ∧ s.answered t .ok d ∧ d.toNat = (s.pkt.read a.toNat).toNat ∧ s.sameBlock t) ∧
  (∀ (a : Byte) (s : State), 47 < a.toNat →
    ∃ t, exec (.prd a) s = .next t ∧ s.answered t .illegalCommand 0#64 ∧
      s.sameBlock { t with sill := s.sill } ∧ t.sill = true)

/-- R167: `PSETLEN` sets `PLEN` to the operand, or to 65535 where it is greater, and changes nothing else. -/
def Obligations.PsetlenSaturates : Prop :=
  (∀ c : Command, c.op = 0x32#8 →
    (c.arg = 0x00#8 → decode c = .instr (.psetlen c.wdata)) ∧ (c.arg ≠ 0x00#8 → decode c = .illegal .argumentNotZero)) ∧
  ∀ (w : Word64) (s : State), ∃ t, exec (.psetlen w) s = .next t ∧ s.answered t .ok 0#64 ∧
    t.plen.toNat = (if w.toNat ≤ 65535 then w.toNat else 65535) ∧
    t.msg = s.msg ∧ s.samePkt t ∧ s.sameTxt t ∧ t.tlen = s.tlen ∧ s.sameFlags t

/-- R160, R168: `PACK` writes every field of the message at its place in `PKT`, sets `PLEN` to 48, and changes nothing else. -/
def Obligations.PackWritesPacket : Prop :=
  (∀ c : Command, c.op = 0x33#8 →
    (c.arg = 0x00#8 → decode c = .instr .pack) ∧ (c.arg ≠ 0x00#8 → decode c = .illegal .argumentNotZero)) ∧
  ∀ s : State, s.inv = true →
    ∃ t, exec .pack s = .next t ∧ s.answered t .ok 0#64 ∧
      (t.pkt.read 0).toNat = s.msg.li.toNat * 64 + s.msg.vn.toNat * 8 + s.msg.mode.toNat ∧
      t.pkt.read 1 = s.msg.stratum ∧ t.pkt.read 2 = s.msg.poll ∧ t.pkt.read 3 = s.msg.prec ∧
      t.pkt.be32Read 4 = s.msg.rdelay ∧ t.pkt.be32Read 8 = s.msg.rdisp ∧ t.pkt.be32Read 12 = s.msg.refid ∧
      t.pkt.be64Read 16 = toNtpTime s.msg.refts.toInt ∧ t.pkt.be64Read 24 = toNtpTime s.msg.orgts.toInt ∧
      t.pkt.be64Read 32 = toNtpTime s.msg.rects.toInt ∧ t.pkt.be64Read 40 = toNtpTime s.msg.xmtts.toInt ∧
      (∀ a, 48 ≤ a → t.pkt.read a = s.pkt.read a) ∧ t.plen.toNat = 48 ∧
      t.msg = s.msg ∧ s.sameTxt t ∧ t.tlen = s.tlen ∧ s.sameFlags t

/-- R161, R169: `UNPACK` with `PLEN` at least 48 sets all 13 registers from the first 48 bytes of `PKT` and changes nothing else. -/
def Obligations.UnpackReadsPacket : Prop :=
  (∀ c : Command, c.op = 0x34#8 →
    (c.arg = 0x00#8 → decode c = .instr .unpack) ∧ (c.arg ≠ 0x00#8 → decode c = .illegal .argumentNotZero)) ∧
  ∀ s : State, 48 ≤ s.plen.toNat →
    ∃ t, exec .unpack s = .next t ∧ s.answered t .ok 0#64 ∧
      t.msg.li.toNat = (s.pkt.read 0).toNat / 64 % 4 ∧ t.msg.vn.toNat = (s.pkt.read 0).toNat / 8 % 8 ∧
      t.msg.mode.toNat = (s.pkt.read 0).toNat % 8 ∧
      t.msg.stratum = s.pkt.read 1 ∧ t.msg.poll = s.pkt.read 2 ∧ t.msg.prec = s.pkt.read 3 ∧
      t.msg.rdelay = s.pkt.be32Read 4 ∧ t.msg.rdisp = s.pkt.be32Read 8 ∧ t.msg.refid = s.pkt.be32Read 12 ∧
      t.msg.refts.toInt = fromNtpTime (s.pkt.be64Read 16) ∧ t.msg.orgts.toInt = fromNtpTime (s.pkt.be64Read 24) ∧
      t.msg.rects.toInt = fromNtpTime (s.pkt.be64Read 32) ∧ t.msg.xmtts.toInt = fromNtpTime (s.pkt.be64Read 40) ∧
      s.samePkt t ∧ s.sameTxt t ∧ s.sameLengths t ∧ s.sameFlags t

/-- R201: `UNPACK` with `PLEN` below 48 answers code 1 with data 0, sets `SINV`, and changes nothing else; with `PLEN` at least 48 it
answers OK, whatever the bytes are. -/
def Obligations.InvalidPacketEffects : Prop :=
  Resp.invalidPacket.code = 1#2 ∧
  (∀ s : State, s.plen.toNat < 48 → exec .unpack s = .next { s with
    sinv := true
    responses := s.responses ++ [{ resp := .invalidPacket, rdata := 0#64 }] }) ∧
  (∀ s : State, 48 ≤ s.plen.toNat → ∃ t, exec .unpack s = .next t ∧ s.answered t .ok 0#64)

/-- R164 (1): `UNPACK` after `PACK` gives back the nine registers that are no timestamps always, and a timestamp register exactly
when its value is in the representable domain. -/
def Obligations.UnpackAfterPack : Prop :=
  ∀ s : State, s.inv = true → ∃ t u, exec .pack s = .next t ∧ exec .unpack t = .next u ∧ t.answered u .ok 0#64 ∧
    ∀ f : MsgReg,
      if f ∈ [.refts, .orgts, .rects, .xmtts] then
        (u.msg.get f = s.msg.get f ↔ -61505152000 ≤ (s.msg.get f).toInt ∧ (s.msg.get f).toInt < 4233462144000)
      else u.msg.get f = s.msg.get f

/-- R164 (2): `PACK` after `UNPACK` gives back bytes 0 to 15 always, and the eight bytes of a timestamp exactly when its low 32 bits
are one of the 1000 fractions of R122. -/
def Obligations.PackAfterUnpack : Prop :=
  ∀ s : State, s.inv = true → 48 ≤ s.plen.toNat →
    ∃ t u, exec .unpack s = .next t ∧ exec .pack t = .next u ∧
      (∀ a < 16, u.pkt.read a = s.pkt.read a) ∧
      ∀ o ∈ [16, 24, 32, 40], ((∀ i < 8, u.pkt.read (o + i) = s.pkt.read (o + i)) ↔
        ∃ r < 1000, (s.pkt.be32Read (o + 4)).toNat = r * 2 ^ 32 / 1000)

/-! ### Status -/

/-- R180: `SRD` returns `SINV` in bit 0, `SILL` in bit 1, `TLEN` in bits 12:8, `PLEN` in bits 31:16 and 0 elsewhere, and changes
nothing. -/
def Obligations.SrdReportsStatus : Prop :=
  (∀ c : Command, c.op = 0x40#8 →
    (c.arg = 0x00#8 → decode c = .instr .srd) ∧ (c.arg ≠ 0x00#8 → decode c = .illegal .argumentNotZero)) ∧
  ∀ s : State, ∃ t d, exec .srd s = .next t ∧ s.answered t .ok d ∧ s.sameBlock t ∧
    d.toNat = s.sinv.toNat + 2 * s.sill.toNat + 2 ^ 8 * s.tlen.toNat + 2 ^ 16 * s.plen.toNat

/-- R181: `SCLR` clears both flags and changes nothing else. -/
def Obligations.SclrClearsFlags : Prop :=
  (∀ c : Command, c.op = 0x41#8 →
    (c.arg = 0x00#8 → decode c = .instr .sclr) ∧ (c.arg ≠ 0x00#8 → decode c = .illegal .argumentNotZero)) ∧
  ∀ s : State, ∃ t, exec .sclr s = .next t ∧ s.answered t .ok 0#64 ∧ t.sinv = false ∧ t.sill = false ∧
    t.msg = s.msg ∧ s.samePkt t ∧ s.sameTxt t ∧ s.sameLengths t

/-! ### Pseudo-instructions -/

/-- R78: the expansion of `PLOAD` of up to 256 bytes, run by the block, answers OK to every command, leaves the first 48 of the
bytes in `PKT`, the bytes it skips and everything else as they were, and `PLEN` the number of bytes. -/
def Obligations.PloadSuppliesBuffer : Prop :=
  ∀ (bs : List Byte) (s : State), s.inv = true → bs.length ≤ 256 →
    ∃ is t, pload bs = some is ∧
      core.run is.length { s with hostEvents := programEvents is ++ s.hostEvents } = .next t ∧
      (∀ a, t.pkt.read a = if h : a < bs.length ∧ a < 48 then bs[a]'h.1 else s.pkt.read a) ∧
      t.plen.toNat = bs.length ∧
      t.responses = s.responses ++ List.replicate is.length { resp := .ok, rdata := 0#64 } ∧
      t.hostEvents = s.hostEvents ∧ t.msg = s.msg ∧ s.sameTxt t ∧ t.tlen = s.tlen ∧ s.sameFlags t

/-- R78: the expansion of `TLOAD` of up to 16 characters, run by the block, leaves them as the text. -/
def Obligations.TloadSuppliesText : Prop :=
  ∀ (bs : List Byte) (s : State), s.inv = true → bs.length ≤ 16 →
    ∃ is t, tload bs = some is ∧
      core.run is.length { s with hostEvents := programEvents is ++ s.hostEvents } = .next t ∧
      t.text = bs ∧ (∀ a, bs.length ≤ a → t.txt.read a = s.txt.read a) ∧
      t.responses = s.responses ++ List.replicate is.length { resp := .ok, rdata := 0#64 } ∧
      t.hostEvents = s.hostEvents ∧ t.msg = s.msg ∧ s.samePkt t ∧ t.plen = s.plen ∧ s.sameFlags t

/-- R78, R104: `MSETQ` of a rational in root delay's or root dispersion's range leaves the register's value within half a unit of
the last place of it. -/
def Obligations.MsetqQuantises : Prop :=
  (∀ (x : Rat) (s : State), -32768 - 1 / 131072 ≤ x → x < 32768 - 1 / 131072 →
    ∃ i t, msetq .rdelay x = some i ∧ exec i s = .next t ∧ s.answered t .ok 0#64 ∧
      |fxValS t.msg.rdelay - x| ≤ 1 / 131072 ∧ ∀ f, f ≠ .rdelay → t.msg.get f = s.msg.get f) ∧
  (∀ (x : Rat) (s : State), 0 - 1 / 131072 ≤ x → x < 65536 - 1 / 131072 →
    ∃ i t, msetq .rdisp x = some i ∧ exec i s = .next t ∧ s.answered t .ok 0#64 ∧
      |fxValU t.msg.rdisp - x| ≤ 1 / 131072 ∧ ∀ f, f ≠ .rdisp → t.msg.get f = s.msg.get f)
end

