-- ==== Sys2Proof/Laws/Operands.lean ====
section
/-! SUPPORT. The laws of the operand forms (Machine/Operands.lean): the message register file, the truncations and extensions,
the saturating lengths; and the lengths of the texts of Machine/RefId.lean. -/

namespace Sys2Proof.Machine

@[simp] theorem Message.get_set_same (m : Message) (f : MsgReg) (v : BitVec f.width) : (m.set f v).get f = v := by
  cases f <;> rfl

theorem Message.get_set_other (m : Message) (f g : MsgReg) (v : BitVec f.width) (ne : g ≠ f) :
    (m.set f v).get g = m.get g := by
  cases f <;> cases g <;> first | rfl | exact absurd rfl ne

/-- Messages with equal registers are equal. -/
theorem Message.eq_of_get (m n : Message) (same : ∀ f, m.get f = n.get f) : m = n := by
  cases m
  cases n
  have li := same .li
  have vn := same .vn
  have mode := same .mode
  have stratum := same .stratum
  have poll := same .poll
  have prec := same .prec
  have rdelay := same .rdelay
  have rdisp := same .rdisp
  have refid := same .refid
  have refts := same .refts
  have orgts := same .orgts
  have rects := same .rects
  have xmtts := same .xmtts
  simp_all [Message.get]

@[simp] theorem Message.get_zero (f : MsgReg) : Message.zero.get f = 0#f.width := by
  cases f <;> rfl

@[simp] theorem toNat_truncateTo (f : MsgReg) (w : Word64) : (truncateTo f w).toNat = w.toNat % 2 ^ f.width := by
  rw [truncateTo, BitVec.toNat_setWidth]

@[simp] theorem toNat_byteOperand (w : Word64) : (byteOperand w).toNat = w.toNat % 2 ^ 8 := by
  rw [byteOperand, BitVec.toNat_setWidth]

@[simp] theorem toNat_zeroExtendByte (b : Byte) : (zeroExtendByte b).toNat = b.toNat := by
  rw [zeroExtendByte, BitVec.toNat_setWidth, Nat.mod_eq_of_lt (by omega)]

@[simp] theorem byteOperand_zeroExtendByte (b : Byte) : byteOperand (zeroExtendByte b) = b := by
  apply BitVec.eq_of_toNat_eq
  rw [toNat_byteOperand, toNat_zeroExtendByte, Nat.mod_eq_of_lt b.isLt]

@[simp] theorem toNat_saturatedTextLength (w : Word64) : (saturatedTextLength w).toNat = min w.toNat 16 := by
  rw [saturatedTextLength, BitVec.toNat_ofNat, Config.txtMax, Nat.mod_eq_of_lt (by omega)]

@[simp] theorem toNat_saturatedPacketLength (w : Word64) : (saturatedPacketLength w).toNat = min w.toNat 65535 := by
  rw [saturatedPacketLength, BitVec.toNat_ofNat, Config.plenMax, Nat.mod_eq_of_lt (by omega)]

/-! ### Texts -/

@[simp] theorem length_fitTo (n : Nat) (t : List Byte) : (fitTo n t).length = n := by
  induction n generalizing t with
  | zero => rfl
  | succ n ih => cases t <;> simp [fitTo, ih]

theorem getD_fitTo (n : Nat) (t : List Byte) (i : Nat) (lt : i < n) : (fitTo n t).getD i 0x00#8 = t.getD i 0x00#8 := by
  induction n generalizing t i with
  | zero => omega
  | succ n ih =>
    cases t with
    | nil =>
      cases i with
      | zero => rfl
      | succ i => rw [fitTo, List.getD_cons_succ, ih [] i (by omega)]; rfl
    | cons b bs =>
      cases i with
      | zero => rfl
      | succ i => rw [fitTo, List.getD_cons_succ, List.getD_cons_succ, ih bs i (by omega)]

theorem length_trimTail_le (t : List Byte) : (trimTail t).length ≤ t.length := by
  simpa [trimTail] using (List.dropWhile_sublist (l := t.reverse) isTrimByte).length_le

theorem length_decimal_le (n : Nat) : (decimal n).length ≤ 3 := by
  unfold decimal
  split_ifs <;> simp

theorem length_refidV4Text_le (b0 b1 b2 b3 : Byte) : (refidV4Text b0 b1 b2 b3).length ≤ 16 := by
  simp [refidV4Text, Config.txtMax]

/-- No text is longer than the text buffer (10_state.md R30). -/
theorem length_refIdToText_le (b0 b1 b2 b3 : Byte) (stratum vn : Nat) :
    (refIdToText b0 b1 b2 b3 stratum vn).length ≤ 16 := by
  unfold refIdToText
  split_ifs
  · exact (length_trimTail_le _).trans (by simp)
  · have h0 := length_decimal_le b0.toNat
    have h1 := length_decimal_le b1.toNat
    have h2 := length_decimal_le b2.toNat
    have h3 := length_decimal_le b3.toNat
    simp only [dottedDecimal, List.length_append, List.length_singleton]
    omega
  · exact length_refidV4Text_le ..
  · simp

end Sys2Proof.Machine
end

