-- ==== Sys2Proof/Laws/Memory.lean ====
section
/-! SUPPORT. The laws of the two buffers: a read after a write, the canonical form and the range are kept by every write, equal
reads make equal canonical buffers, and the big-endian accesses. -/

namespace Sys2Proof.Machine

/-! ### One byte -/

@[simp] theorem Memory.read_nil (a : Nat) : Memory.read [] a = unlistedByte := rfl

theorem Memory.read_listed (k : Nat) (v : Byte) (rest : Memory) (a : Nat) :
    Memory.read ((k, v) :: rest) a = if a = k then v else Memory.read rest a := rfl

theorem Memory.wfFrom_listed (lo k : Nat) (v : Byte) (rest : Memory) :
    Memory.wfFrom lo ((k, v) :: rest) = true ↔ lo ≤ k ∧ v ≠ unlistedByte ∧ Memory.wfFrom (k + 1) rest = true := by
  simp [Memory.wfFrom, and_assoc]

theorem Memory.within_listed (size k : Nat) (v : Byte) (rest : Memory) :
    Memory.within size ((k, v) :: rest) = true ↔ k < size ∧ Memory.within size rest = true := by
  simp [Memory.within]

theorem Memory.wfFrom_mono {lo lo' : Nat} (m : Memory) (le : lo' ≤ lo) (h : Memory.wfFrom lo m = true) :
    Memory.wfFrom lo' m = true := by
  cases m with
  | nil => rfl
  | cons c rest =>
    obtain ⟨k, v⟩ := c
    rw [Memory.wfFrom_listed] at h ⊢
    exact ⟨le.trans h.1, h.2⟩

theorem Memory.read_below {lo : Nat} (m : Memory) (h : Memory.wfFrom lo m = true) {a : Nat} (lt : a < lo) :
    m.read a = unlistedByte := by
  induction m generalizing lo with
  | nil => rfl
  | cons c rest ih =>
    obtain ⟨k, v⟩ := c
    rw [Memory.wfFrom_listed] at h
    rw [Memory.read_listed, if_neg (by omega)]
    exact ih h.2.2 (by omega)

theorem Memory.read_beyond {size : Nat} (m : Memory) (h : Memory.within size m = true) {a : Nat} (le : size ≤ a) :
    m.read a = unlistedByte := by
  induction m with
  | nil => rfl
  | cons c rest ih =>
    obtain ⟨k, v⟩ := c
    rw [Memory.within_listed] at h
    rw [Memory.read_listed, if_neg (by omega)]
    exact ih h.2

/-- A cell put in front reads as its byte, and nothing else changes, where its address was not listed. -/
theorem Memory.read_cons (a : Nat) (b : Byte) (rest : Memory) (unlisted : rest.read a = unlistedByte) (x : Nat) :
    (Memory.cons a b rest).read x = if x = a then b else rest.read x := by
  unfold Memory.cons
  by_cases hb : b = unlistedByte
  · rw [if_pos hb]
    by_cases hx : x = a
    · rw [if_pos hx, hx, unlisted, hb]
    · rw [if_neg hx]
  · rw [if_neg hb, Memory.read_listed]

theorem Memory.read_write_from {lo : Nat} (m : Memory) (h : Memory.wfFrom lo m = true) (a : Nat) (b : Byte) (x : Nat) :
    (m.write a b).read x = if x = a then b else m.read x := by
  induction m generalizing lo with
  | nil => exact Memory.read_cons a b [] rfl x
  | cons c rest ih =>
    obtain ⟨k, v⟩ := c
    have parts := (Memory.wfFrom_listed ..).1 h
    rw [Memory.write]
    by_cases hlt : a < k
    · rw [if_pos hlt]
      exact Memory.read_cons a b _ (Memory.read_below (lo := k) _ ((Memory.wfFrom_listed ..).2 ⟨le_rfl, parts.2⟩) hlt) x
    · rw [if_neg hlt]
      by_cases heq : a = k
      · rw [if_pos heq, Memory.read_cons a b rest (Memory.read_below rest parts.2.2 (by omega)), Memory.read_listed, ← heq]
        split_ifs <;> rfl
      · rw [if_neg heq, Memory.read_listed, Memory.read_listed, ih parts.2.2]
        split_ifs <;> first | rfl | omega

/-- What an address of a canonical buffer reads as after a write. -/
theorem Memory.read_write (m : Memory) (h : m.wf = true) (a : Nat) (b : Byte) (x : Nat) :
    (m.write a b).read x = if x = a then b else m.read x :=
  Memory.read_write_from m h a b x

/-- On a canonical buffer a read at the address just written gives the byte written. -/
theorem Memory.read_write_same (m : Memory) (h : m.wf = true) (a : Nat) (b : Byte) : (m.write a b).read a = b := by
  rw [Memory.read_write m h, if_pos rfl]

/-- On a canonical buffer a write leaves every other address alone. -/
theorem Memory.read_write_other (m : Memory) (h : m.wf = true) {a x : Nat} (b : Byte) (ne : x ≠ a) :
    (m.write a b).read x = m.read x := by
  rw [Memory.read_write m h, if_neg ne]

theorem Memory.wfFrom_cons {lo a : Nat} (b : Byte) (rest : Memory) (le : lo ≤ a)
    (h : Memory.wfFrom (a + 1) rest = true) : Memory.wfFrom lo (Memory.cons a b rest) = true := by
  unfold Memory.cons
  split_ifs with hb
  · exact Memory.wfFrom_mono rest (by omega) h
  · exact (Memory.wfFrom_listed ..).2 ⟨le, hb, h⟩

theorem Memory.wfFrom_write {lo : Nat} (m : Memory) (h : Memory.wfFrom lo m = true) {a : Nat} (le : lo ≤ a) (b : Byte) :
    Memory.wfFrom lo (m.write a b) = true := by
  induction m generalizing lo with
  | nil => exact Memory.wfFrom_cons b [] le rfl
  | cons c rest ih =>
    obtain ⟨k, v⟩ := c
    rw [Memory.wfFrom_listed] at h
    simp only [Memory.write]
    split_ifs with hlt heq
    · exact Memory.wfFrom_cons b _ le ((Memory.wfFrom_listed ..).2 ⟨hlt, h.2⟩)
    · exact Memory.wfFrom_cons b _ le (heq ▸ h.2.2)
    · exact (Memory.wfFrom_listed ..).2 ⟨h.1, h.2.1, ih h.2.2 (by omega)⟩

/-- A write keeps the canonical form. -/
theorem Memory.wf_write (m : Memory) (h : m.wf = true) (a : Nat) (b : Byte) : (m.write a b).wf = true :=
  Memory.wfFrom_write m h (Nat.zero_le a) b

theorem Memory.within_cons {size a : Nat} (b : Byte) (rest : Memory) (lt : a < size)
    (h : Memory.within size rest = true) : Memory.within size (Memory.cons a b rest) = true := by
  unfold Memory.cons
  split_ifs
  · exact h
  · exact (Memory.within_listed ..).2 ⟨lt, h⟩

/-- A write inside a buffer's range keeps the buffer inside its range. -/
theorem Memory.within_write {size : Nat} (m : Memory) (h : Memory.within size m = true) {a : Nat} (lt : a < size)
    (b : Byte) : Memory.within size (m.write a b) = true := by
  induction m with
  | nil => exact Memory.within_cons b [] lt rfl
  | cons c rest ih =>
    obtain ⟨k, v⟩ := c
    have parts := (Memory.within_listed ..).1 h
    simp only [Memory.write]
    split_ifs
    · exact Memory.within_cons b _ lt h
    · exact Memory.within_cons b _ lt parts.2
    · exact (Memory.within_listed ..).2 ⟨parts.1, ih parts.2⟩

theorem Memory.eq_of_read_from {lo : Nat} (m n : Memory) (hm : Memory.wfFrom lo m = true) (hn : Memory.wfFrom lo n = true)
    (same : ∀ a, m.read a = n.read a) : m = n := by
  induction m generalizing lo n with
  | nil =>
    cases n with
    | nil => rfl
    | cons c rest =>
      obtain ⟨k, v⟩ := c
      have h := same k
      rw [Memory.read_listed, if_pos rfl] at h
      exact absurd h.symm ((Memory.wfFrom_listed ..).1 hn).2.1
  | cons c rest ih =>
    obtain ⟨k, v⟩ := c
    have pm := (Memory.wfFrom_listed ..).1 hm
    cases n with
    | nil =>
      have h := same k
      rw [Memory.read_listed, if_pos rfl] at h
      exact absurd h pm.2.1
    | cons c' rest' =>
      obtain ⟨k', v'⟩ := c'
      have pn := (Memory.wfFrom_listed ..).1 hn
      have atk := same k
      have atk' := same k'
      rw [Memory.read_listed, Memory.read_listed, if_pos rfl] at atk
      rw [Memory.read_listed, Memory.read_listed, if_pos rfl] at atk'
      have hk : k = k' := by
        rcases Nat.lt_trichotomy k k' with lt | eq | gt
        · rw [if_neg (by omega), Memory.read_below rest' pn.2.2 (by omega)] at atk
          exact absurd atk pm.2.1
        · exact eq
        · rw [if_neg (by omega), Memory.read_below rest pm.2.2 (by omega)] at atk'
          exact absurd atk'.symm pn.2.1
      subst hk
      rw [if_pos rfl] at atk
      subst atk
      have tails : rest = rest' := by
        refine ih rest' pm.2.2 pn.2.2 fun a => ?_
        have ha := same a
        rw [Memory.read_listed, Memory.read_listed] at ha
        by_cases hak : a = k
        · subst hak
          rw [Memory.read_below rest pm.2.2 (by omega), Memory.read_below rest' pn.2.2 (by omega)]
        · rwa [if_neg hak, if_neg hak] at ha
      rw [tails]

/-- Canonical buffers that read the same everywhere are equal data. -/
theorem Memory.eq_of_read (m n : Memory) (hm : m.wf = true) (hn : n.wf = true) (same : ∀ a, m.read a = n.read a) : m = n :=
  Memory.eq_of_read_from m n hm hn same

/-! ### Several bytes -/

/-- What an address reads as after bytes were written one after another from `off` on. -/
theorem Memory.read_writeBytes (m : Memory) (h : m.wf = true) (off : Nat) (bs : List Byte) (x : Nat) :
    (m.writeBytes off bs).read x = if off ≤ x then bs.getD (x - off) (m.read x) else m.read x := by
  induction bs generalizing m off with
  | nil => simp [Memory.writeBytes]
  | cons b bs ih =>
    rw [Memory.writeBytes, ih _ (Memory.wf_write m h off b), Memory.read_write m h]
    rcases Nat.lt_trichotomy x off with lt | eq | gt
    · rw [if_neg (by omega), if_neg (by omega), if_neg (by omega)]
    · subst eq
      simp
    · have hx : x - off = (x - (off + 1)) + 1 := by omega
      rw [if_pos (by omega), if_neg (by omega), if_pos (by omega), hx, List.getD_cons_succ]

theorem Memory.wf_writeBytes (m : Memory) (h : m.wf = true) (off : Nat) (bs : List Byte) :
    (m.writeBytes off bs).wf = true := by
  induction bs generalizing m off with
  | nil => exact h
  | cons b bs ih => exact ih _ (Memory.wf_write m h off b) _

theorem Memory.within_writeBytes {size : Nat} (m : Memory) (h : m.within size = true) (off : Nat) (bs : List Byte)
    (le : off + bs.length ≤ size) : (m.writeBytes off bs).within size = true := by
  induction bs generalizing m off with
  | nil => exact h
  | cons b bs ih =>
    rw [List.length_cons] at le
    exact ih _ (Memory.within_write m h (by omega) b) _ (by omega)

@[simp] theorem Memory.length_readBytes (m : Memory) (off n : Nat) : (m.readBytes off n).length = n := by
  induction n generalizing off with
  | zero => rfl
  | succ n ih => rw [Memory.readBytes, List.length_cons, ih]

theorem Memory.getD_readBytes (m : Memory) (off n i : Nat) (d : Byte) (lt : i < n) :
    (m.readBytes off n).getD i d = m.read (off + i) := by
  induction n generalizing off i with
  | zero => omega
  | succ n ih =>
    cases i with
    | zero => simp [Memory.readBytes]
    | succ i => rw [Memory.readBytes, List.getD_cons_succ, ih _ _ (by omega), Nat.add_right_comm, Nat.add_assoc]

/-! ### Big-endian accesses -/

/-- What an address reads as after `BE32Write`: byte `i` of the word, counted from the most significant (20_memory.md R44). -/
theorem Memory.read_be32Write (m : Memory) (h : m.wf = true) (off : Nat) (v : Word32) (x : Nat) :
    (m.be32Write off v).read x =
      if x = off then v.extractLsb' 24 8 else if x = off + 1 then v.extractLsb' 16 8
      else if x = off + 2 then v.extractLsb' 8 8 else if x = off + 3 then v.extractLsb' 0 8 else m.read x := by
  unfold Memory.be32Write
  repeat rw [Memory.read_write _ (by repeat first | exact h | apply Memory.wf_write)]
  split_ifs <;> first | rfl | omega

/-- A word is the concatenation of its four bytes. -/
theorem word32_of_bytes (v : Word32) :
    v.extractLsb' 24 8 ++ v.extractLsb' 16 8 ++ v.extractLsb' 8 8 ++ v.extractLsb' 0 8 = v := by
  ext i hi
  simp only [BitVec.getElem_append, BitVec.getElem_extractLsb']
  split_ifs <;> simp only [← BitVec.getLsbD_eq_getElem] <;> congr 1 <;> omega

/-- A word is the concatenation of its eight bytes. -/
theorem word64_of_bytes (v : Word64) :
    v.extractLsb' 56 8 ++ v.extractLsb' 48 8 ++ v.extractLsb' 40 8 ++ v.extractLsb' 32 8 ++ v.extractLsb' 24 8 ++
      v.extractLsb' 16 8 ++ v.extractLsb' 8 8 ++ v.extractLsb' 0 8 = v := by
  ext i hi
  simp only [BitVec.getElem_append, BitVec.getElem_extractLsb']
  split_ifs <;> simp only [← BitVec.getLsbD_eq_getElem] <;> congr 1 <;> omega

theorem Memory.wf_be32Write (m : Memory) (h : m.wf = true) (off : Nat) (v : Word32) : (m.be32Write off v).wf = true := by
  unfold Memory.be32Write
  repeat first | exact h | apply Memory.wf_write

theorem Memory.within_be32Write {size : Nat} (m : Memory) (h : m.within size = true) (off : Nat) (v : Word32)
    (lt : off + 3 < size) : (m.be32Write off v).within size = true := by
  unfold Memory.be32Write
  repeat first | exact h | refine Memory.within_write _ ?_ (by omega) _

/-- What an address reads as after `BE64Write`: byte `i` of the word, counted from the most significant (20_memory.md R46). -/
theorem Memory.read_be64Write (m : Memory) (h : m.wf = true) (off : Nat) (v : Word64) (x : Nat) :
    (m.be64Write off v).read x =
      if x = off then v.extractLsb' 56 8 else if x = off + 1 then v.extractLsb' 48 8
      else if x = off + 2 then v.extractLsb' 40 8 else if x = off + 3 then v.extractLsb' 32 8
      else if x = off + 4 then v.extractLsb' 24 8 else if x = off + 5 then v.extractLsb' 16 8
      else if x = off + 6 then v.extractLsb' 8 8 else if x = off + 7 then v.extractLsb' 0 8 else m.read x := by
  unfold Memory.be64Write
  repeat rw [Memory.read_write _ (by repeat first | exact h | apply Memory.wf_write)]
  split_ifs <;> first | rfl | omega

theorem Memory.wf_be64Write (m : Memory) (h : m.wf = true) (off : Nat) (v : Word64) : (m.be64Write off v).wf = true := by
  unfold Memory.be64Write
  repeat first | exact h | apply Memory.wf_write

theorem Memory.within_be64Write {size : Nat} (m : Memory) (h : m.within size = true) (off : Nat) (v : Word64)
    (lt : off + 7 < size) : (m.be64Write off v).within size = true := by
  unfold Memory.be64Write
  repeat first | exact h | refine Memory.within_write _ ?_ (by omega) _

end Sys2Proof.Machine
end

