-- ==== Sys2Proof/Laws/State.lean ====
section
/-! SUPPORT. One lemma for each field of State and each of its updates (Machine/Flags.lean, Machine/Ops.lean), so that no later
proof unfolds a record update. -/

namespace Sys2Proof.Machine

/-! `setMsg` -/

@[simp] theorem State.setMsg_msg (s : State) (m : Message) : (s.setMsg m).msg = m := rfl
@[simp] theorem State.setMsg_pkt (s : State) (m : Message) : (s.setMsg m).pkt = s.pkt := rfl
@[simp] theorem State.setMsg_plen (s : State) (m : Message) : (s.setMsg m).plen = s.plen := rfl
@[simp] theorem State.setMsg_txt (s : State) (m : Message) : (s.setMsg m).txt = s.txt := rfl
@[simp] theorem State.setMsg_tlen (s : State) (m : Message) : (s.setMsg m).tlen = s.tlen := rfl
@[simp] theorem State.setMsg_sinv (s : State) (m : Message) : (s.setMsg m).sinv = s.sinv := rfl
@[simp] theorem State.setMsg_sill (s : State) (m : Message) : (s.setMsg m).sill = s.sill := rfl
@[simp] theorem State.setMsg_hostEvents (s : State) (m : Message) : (s.setMsg m).hostEvents = s.hostEvents := rfl
@[simp] theorem State.setMsg_responses (s : State) (m : Message) : (s.setMsg m).responses = s.responses := rfl

/-! `setPkt` -/

@[simp] theorem State.setPkt_msg (s : State) (p : Memory) : (s.setPkt p).msg = s.msg := rfl
@[simp] theorem State.setPkt_pkt (s : State) (p : Memory) : (s.setPkt p).pkt = p := rfl
@[simp] theorem State.setPkt_plen (s : State) (p : Memory) : (s.setPkt p).plen = s.plen := rfl
@[simp] theorem State.setPkt_txt (s : State) (p : Memory) : (s.setPkt p).txt = s.txt := rfl
@[simp] theorem State.setPkt_tlen (s : State) (p : Memory) : (s.setPkt p).tlen = s.tlen := rfl
@[simp] theorem State.setPkt_sinv (s : State) (p : Memory) : (s.setPkt p).sinv = s.sinv := rfl
@[simp] theorem State.setPkt_sill (s : State) (p : Memory) : (s.setPkt p).sill = s.sill := rfl
@[simp] theorem State.setPkt_hostEvents (s : State) (p : Memory) : (s.setPkt p).hostEvents = s.hostEvents := rfl
@[simp] theorem State.setPkt_responses (s : State) (p : Memory) : (s.setPkt p).responses = s.responses := rfl

/-! `setPlen` -/

@[simp] theorem State.setPlen_msg (s : State) (n : BitVec 16) : (s.setPlen n).msg = s.msg := rfl
@[simp] theorem State.setPlen_pkt (s : State) (n : BitVec 16) : (s.setPlen n).pkt = s.pkt := rfl
@[simp] theorem State.setPlen_plen (s : State) (n : BitVec 16) : (s.setPlen n).plen = n := rfl
@[simp] theorem State.setPlen_txt (s : State) (n : BitVec 16) : (s.setPlen n).txt = s.txt := rfl
@[simp] theorem State.setPlen_tlen (s : State) (n : BitVec 16) : (s.setPlen n).tlen = s.tlen := rfl
@[simp] theorem State.setPlen_sinv (s : State) (n : BitVec 16) : (s.setPlen n).sinv = s.sinv := rfl
@[simp] theorem State.setPlen_sill (s : State) (n : BitVec 16) : (s.setPlen n).sill = s.sill := rfl
@[simp] theorem State.setPlen_hostEvents (s : State) (n : BitVec 16) : (s.setPlen n).hostEvents = s.hostEvents := rfl
@[simp] theorem State.setPlen_responses (s : State) (n : BitVec 16) : (s.setPlen n).responses = s.responses := rfl

/-! `setTxt` -/

@[simp] theorem State.setTxt_msg (s : State) (t : Memory) : (s.setTxt t).msg = s.msg := rfl
@[simp] theorem State.setTxt_pkt (s : State) (t : Memory) : (s.setTxt t).pkt = s.pkt := rfl
@[simp] theorem State.setTxt_plen (s : State) (t : Memory) : (s.setTxt t).plen = s.plen := rfl
@[simp] theorem State.setTxt_txt (s : State) (t : Memory) : (s.setTxt t).txt = t := rfl
@[simp] theorem State.setTxt_tlen (s : State) (t : Memory) : (s.setTxt t).tlen = s.tlen := rfl
@[simp] theorem State.setTxt_sinv (s : State) (t : Memory) : (s.setTxt t).sinv = s.sinv := rfl
@[simp] theorem State.setTxt_sill (s : State) (t : Memory) : (s.setTxt t).sill = s.sill := rfl
@[simp] theorem State.setTxt_hostEvents (s : State) (t : Memory) : (s.setTxt t).hostEvents = s.hostEvents := rfl
@[simp] theorem State.setTxt_responses (s : State) (t : Memory) : (s.setTxt t).responses = s.responses := rfl

/-! `setTlen` -/

@[simp] theorem State.setTlen_msg (s : State) (n : BitVec 5) : (s.setTlen n).msg = s.msg := rfl
@[simp] theorem State.setTlen_pkt (s : State) (n : BitVec 5) : (s.setTlen n).pkt = s.pkt := rfl
@[simp] theorem State.setTlen_plen (s : State) (n : BitVec 5) : (s.setTlen n).plen = s.plen := rfl
@[simp] theorem State.setTlen_txt (s : State) (n : BitVec 5) : (s.setTlen n).txt = s.txt := rfl
@[simp] theorem State.setTlen_tlen (s : State) (n : BitVec 5) : (s.setTlen n).tlen = n := rfl
@[simp] theorem State.setTlen_sinv (s : State) (n : BitVec 5) : (s.setTlen n).sinv = s.sinv := rfl
@[simp] theorem State.setTlen_sill (s : State) (n : BitVec 5) : (s.setTlen n).sill = s.sill := rfl
@[simp] theorem State.setTlen_hostEvents (s : State) (n : BitVec 5) : (s.setTlen n).hostEvents = s.hostEvents := rfl
@[simp] theorem State.setTlen_responses (s : State) (n : BitVec 5) : (s.setTlen n).responses = s.responses := rfl

/-! `recordInvalidPacket` -/

@[simp] theorem State.recordInvalidPacket_msg (s : State) : s.recordInvalidPacket.msg = s.msg := rfl
@[simp] theorem State.recordInvalidPacket_pkt (s : State) : s.recordInvalidPacket.pkt = s.pkt := rfl
@[simp] theorem State.recordInvalidPacket_plen (s : State) : s.recordInvalidPacket.plen = s.plen := rfl
@[simp] theorem State.recordInvalidPacket_txt (s : State) : s.recordInvalidPacket.txt = s.txt := rfl
@[simp] theorem State.recordInvalidPacket_tlen (s : State) : s.recordInvalidPacket.tlen = s.tlen := rfl
@[simp] theorem State.recordInvalidPacket_sinv (s : State) : s.recordInvalidPacket.sinv = true := rfl
@[simp] theorem State.recordInvalidPacket_sill (s : State) : s.recordInvalidPacket.sill = s.sill := rfl
@[simp] theorem State.recordInvalidPacket_hostEvents (s : State) : s.recordInvalidPacket.hostEvents = s.hostEvents := rfl
@[simp] theorem State.recordInvalidPacket_responses (s : State) : s.recordInvalidPacket.responses = s.responses := rfl

/-! `recordIllegalCommand` -/

@[simp] theorem State.recordIllegalCommand_msg (s : State) : s.recordIllegalCommand.msg = s.msg := rfl
@[simp] theorem State.recordIllegalCommand_pkt (s : State) : s.recordIllegalCommand.pkt = s.pkt := rfl
@[simp] theorem State.recordIllegalCommand_plen (s : State) : s.recordIllegalCommand.plen = s.plen := rfl
@[simp] theorem State.recordIllegalCommand_txt (s : State) : s.recordIllegalCommand.txt = s.txt := rfl
@[simp] theorem State.recordIllegalCommand_tlen (s : State) : s.recordIllegalCommand.tlen = s.tlen := rfl
@[simp] theorem State.recordIllegalCommand_sinv (s : State) : s.recordIllegalCommand.sinv = s.sinv := rfl
@[simp] theorem State.recordIllegalCommand_sill (s : State) : s.recordIllegalCommand.sill = true := rfl
@[simp] theorem State.recordIllegalCommand_hostEvents (s : State) : s.recordIllegalCommand.hostEvents = s.hostEvents := rfl
@[simp] theorem State.recordIllegalCommand_responses (s : State) : s.recordIllegalCommand.responses = s.responses := rfl

/-! `clearFlags` -/

@[simp] theorem State.clearFlags_msg (s : State) : s.clearFlags.msg = s.msg := rfl
@[simp] theorem State.clearFlags_pkt (s : State) : s.clearFlags.pkt = s.pkt := rfl
@[simp] theorem State.clearFlags_plen (s : State) : s.clearFlags.plen = s.plen := rfl
@[simp] theorem State.clearFlags_txt (s : State) : s.clearFlags.txt = s.txt := rfl
@[simp] theorem State.clearFlags_tlen (s : State) : s.clearFlags.tlen = s.tlen := rfl
@[simp] theorem State.clearFlags_sinv (s : State) : s.clearFlags.sinv = false := rfl
@[simp] theorem State.clearFlags_sill (s : State) : s.clearFlags.sill = false := rfl
@[simp] theorem State.clearFlags_hostEvents (s : State) : s.clearFlags.hostEvents = s.hostEvents := rfl
@[simp] theorem State.clearFlags_responses (s : State) : s.clearFlags.responses = s.responses := rfl

/-! `respond` -/

@[simp] theorem State.respond_msg (s : State) (r : Resp) (d : Word64) : (s.respond r d).msg = s.msg := rfl
@[simp] theorem State.respond_pkt (s : State) (r : Resp) (d : Word64) : (s.respond r d).pkt = s.pkt := rfl
@[simp] theorem State.respond_plen (s : State) (r : Resp) (d : Word64) : (s.respond r d).plen = s.plen := rfl
@[simp] theorem State.respond_txt (s : State) (r : Resp) (d : Word64) : (s.respond r d).txt = s.txt := rfl
@[simp] theorem State.respond_tlen (s : State) (r : Resp) (d : Word64) : (s.respond r d).tlen = s.tlen := rfl
@[simp] theorem State.respond_sinv (s : State) (r : Resp) (d : Word64) : (s.respond r d).sinv = s.sinv := rfl
@[simp] theorem State.respond_sill (s : State) (r : Resp) (d : Word64) : (s.respond r d).sill = s.sill := rfl
@[simp] theorem State.respond_hostEvents (s : State) (r : Resp) (d : Word64) : (s.respond r d).hostEvents = s.hostEvents := rfl
@[simp] theorem State.respond_responses (s : State) (r : Resp) (d : Word64) : (s.respond r d).responses = s.responses ++ [{ resp := r, rdata := d }] := rfl

/-! `offer` -/

@[simp] theorem State.offer_msg (s : State) (c : Command) : (s.offer c).msg = s.msg := rfl
@[simp] theorem State.offer_pkt (s : State) (c : Command) : (s.offer c).pkt = s.pkt := rfl
@[simp] theorem State.offer_plen (s : State) (c : Command) : (s.offer c).plen = s.plen := rfl
@[simp] theorem State.offer_txt (s : State) (c : Command) : (s.offer c).txt = s.txt := rfl
@[simp] theorem State.offer_tlen (s : State) (c : Command) : (s.offer c).tlen = s.tlen := rfl
@[simp] theorem State.offer_sinv (s : State) (c : Command) : (s.offer c).sinv = s.sinv := rfl
@[simp] theorem State.offer_sill (s : State) (c : Command) : (s.offer c).sill = s.sill := rfl
@[simp] theorem State.offer_hostEvents (s : State) (c : Command) : (s.offer c).hostEvents = .command c :: s.hostEvents := rfl
@[simp] theorem State.offer_responses (s : State) (c : Command) : (s.offer c).responses = s.responses := rfl

/-! `platformReset` -/

@[simp] theorem State.platformReset_msg (s : State) : s.platformReset.msg = Message.zero := rfl
@[simp] theorem State.platformReset_pkt (s : State) : s.platformReset.pkt = [] := rfl
@[simp] theorem State.platformReset_plen (s : State) : s.platformReset.plen = 0#16 := rfl
@[simp] theorem State.platformReset_txt (s : State) : s.platformReset.txt = [] := rfl
@[simp] theorem State.platformReset_tlen (s : State) : s.platformReset.tlen = 0#5 := rfl
@[simp] theorem State.platformReset_sinv (s : State) : s.platformReset.sinv = false := rfl
@[simp] theorem State.platformReset_sill (s : State) : s.platformReset.sill = false := rfl
@[simp] theorem State.platformReset_hostEvents (s : State) : s.platformReset.hostEvents = s.hostEvents := rfl
@[simp] theorem State.platformReset_responses (s : State) : s.platformReset.responses = s.responses := rfl

/-! The state after reset. -/

@[simp] theorem State.reset_msg : State.reset.msg = Message.zero := rfl
@[simp] theorem State.reset_pkt : State.reset.pkt = [] := rfl
@[simp] theorem State.reset_plen : State.reset.plen = 0#16 := rfl
@[simp] theorem State.reset_txt : State.reset.txt = [] := rfl
@[simp] theorem State.reset_tlen : State.reset.tlen = 0#5 := rfl
@[simp] theorem State.reset_sinv : State.reset.sinv = false := rfl
@[simp] theorem State.reset_sill : State.reset.sill = false := rfl
@[simp] theorem State.reset_hostEvents : State.reset.hostEvents = [] := rfl
@[simp] theorem State.reset_responses : State.reset.responses = [] := rfl

/-- Two states are equal when all their fields are. -/
theorem State.ext_fields {s t : State} (msg : s.msg = t.msg) (pkt : s.pkt = t.pkt) (plen : s.plen = t.plen)
    (txt : s.txt = t.txt) (tlen : s.tlen = t.tlen) (sinv : s.sinv = t.sinv) (sill : s.sill = t.sill)
    (hostEvents : s.hostEvents = t.hostEvents) (responses : s.responses = t.responses) : s = t := by
  cases s
  cases t
  simp_all

end Sys2Proof.Machine
end

