-- ==== Sys2Proof/Laws/Ops.lean ====
section
/-! SUPPORT. What each shared operation of Machine/Ops.lean can do, said once: the responses, the two failures, the host's
port; and the buffers of the state after reset. -/

namespace Sys2Proof.Machine

theorem returnData_eq_next {s t : State} {v : Word64} : returnData s v = .next t ↔ t = s.respond .ok v := by
  simp [returnData, eq_comm]

theorem returnOk_eq_next {s t : State} : returnOk s = .next t ↔ t = s.respond .ok 0#64 := by
  rw [returnOk, returnData_eq_next]

theorem raiseInvalidPacket_eq_next {s t : State} :
    raiseInvalidPacket s = .next t ↔ t = s.recordInvalidPacket.respond .invalidPacket 0#64 := by
  simp [raiseInvalidPacket, eq_comm]

theorem raiseIllegalCommand_eq_next {s t : State} :
    raiseIllegalCommand s = .next t ↔ t = s.recordIllegalCommand.respond .illegalCommand 0#64 := by
  simp [raiseIllegalCommand, eq_comm]

theorem State.takeEvent_eq_none {s : State} : s.takeEvent = none ↔ s.hostEvents = [] := by
  unfold State.takeEvent
  cases h : s.hostEvents <;> simp

theorem State.takeEvent_eq_some {s t : State} {e : HostEvent} :
    s.takeEvent = some (e, t) ↔ ∃ rest, s.hostEvents = e :: rest ∧ t = { s with hostEvents := rest } := by
  unfold State.takeEvent
  cases h : s.hostEvents with
  | nil => simp
  | cons e' rest =>
    simp only [Option.some.injEq, Prod.mk.injEq, List.cons.injEq]
    constructor
    · rintro ⟨rfl, rfl⟩
      exact ⟨rest, ⟨rfl, rfl⟩, rfl⟩
    · rintro ⟨rest', ⟨rfl, rfl⟩, rfl⟩
      exact ⟨rfl, rfl⟩

theorem State.takeEvent_offer (s : State) (c : Command) : (s.offer c).takeEvent = some (.command c, s) := rfl

/-- The parts of the invariant. -/
theorem State.inv_iff {s : State} : s.inv = true ↔
    s.pkt.wf = true ∧ s.pkt.within 48 = true ∧ s.txt.wf = true ∧ s.txt.within 16 = true ∧ s.tlen.toNat ≤ 16 := by
  simp only [State.inv, Bool.and_eq_true, decide_eq_true_eq, and_assoc]
  rfl

/-- The buffers of the state after reset are in canonical form. -/
theorem State.reset_buffers_wf : State.reset.pkt.wf = true ∧ State.reset.txt.wf = true := ⟨rfl, rfl⟩

end Sys2Proof.Machine
end

