-- ==== Sys2Proof/Laws/Packet.lean ====
section
/-! SUPPORT. What writing a packet into a buffer does (Machine/Packet.lean): it keeps the canonical form and the range. -/

namespace Sys2Proof.Machine

theorem wf_packInto (p : Memory) (h : p.wf = true) (m : Message) : (packInto p m).wf = true := by
  simp only [packInto]
  iterate 4 apply Memory.wf_be64Write
  iterate 4 apply Memory.wf_write
  iterate 2 apply Memory.wf_be32Write
  iterate 4 apply Memory.wf_write
  exact h

theorem within_packInto (p : Memory) (h : p.within 48 = true) (m : Message) : (packInto p m).within 48 = true := by
  simp only [packInto]
  iterate 4 refine Memory.within_be64Write _ ?_ _ _ (by omega)
  iterate 4 refine Memory.within_write _ ?_ (by omega) _
  iterate 2 refine Memory.within_be32Write _ ?_ _ _ (by omega)
  iterate 4 refine Memory.within_write _ ?_ (by omega) _
  exact h

end Sys2Proof.Machine
end

