-- ==== Sys2Proof/Laws/Exec.lean ====
section
/-! SUPPORT. What a command can do, said once: its meaning by cases, the one answer it gives, and the effect of a step on the
host's port. Later proofs cite these instead of unfolding a meaning. -/

namespace Sys2Proof.Machine

/-! ### The commands with one outcome -/

theorem execMclr_next (s : State) :
    execMclr s = .next ((s.setMsg Message.zero).respond .ok 0#64) := by
  rw [execMclr, returnOk, returnData]

theorem execMset_next (f : MsgReg) (w : Word64) (s : State) :
    execMset f w s = .next ((s.setMsg (s.msg.set f (truncateTo f w))).respond .ok 0#64) := by
  rw [execMset, returnOk, returnData]

theorem execMget_next (f : MsgReg) (s : State) :
    execMget f s = .next (s.respond .ok (s.msg.extended f)) := by
  rw [execMget, returnData]

theorem execTontp_next (w : Word64) (s : State) :
    execTontp w s = .next (s.respond .ok (toNtpTime w.toInt)) := by
  rw [execTontp, returnData]

theorem execFrntp_next (w : Word64) (s : State) :
    execFrntp w s = .next (s.respond .ok (BitVec.ofInt 64 (fromNtpTime w))) := by
  rw [execFrntp, returnData]

theorem execTsetlen_next (w : Word64) (s : State) :
    execTsetlen w s = .next ((s.setTlen (saturatedTextLength w)).respond .ok 0#64) := by
  rw [execTsetlen, returnOk, returnData]

theorem execRidstr_next (s : State) :
    execRidstr s = .next (((s.setTxt (s.txt.writeBytes 0 (fitTo Config.txtMax s.msg.refidText))).setTlen
      (BitVec.ofNat 5 s.msg.refidText.length)).respond .ok 0#64) := by
  rw [execRidstr, returnOk, returnData]

theorem execRidset_next (s : State) :
    execRidset s = .next ((s.setMsg (s.msg.set .refid (wordOfBytes (refIdFromText s.text)))).respond .ok 0#64) := by
  rw [execRidset, returnOk, returnData]

theorem execPsetlen_next (w : Word64) (s : State) :
    execPsetlen w s = .next ((s.setPlen (saturatedPacketLength w)).respond .ok 0#64) := by
  rw [execPsetlen, returnOk, returnData]

theorem execPack_next (s : State) :
    execPack s = .next (((s.setPkt (packInto s.pkt s.msg)).setPlen (BitVec.ofNat 16 Config.pktLen)).respond .ok 0#64) := by
  rw [execPack, returnOk, returnData]

theorem execSrd_next (s : State) :
    execSrd s = .next (s.respond .ok s.statusWord) := by
  rw [execSrd, returnData]

theorem execSclr_next (s : State) :
    execSclr s = .next (s.clearFlags.respond .ok 0#64) := by
  rw [execSclr, returnOk, returnData]

/-! ### The commands with two outcomes -/

theorem execTwr_legal {a : Byte} (h : a.toNat ≤ 15) (w : Word64) (s : State) :
    execTwr a w s = .next ((s.setTxt (s.txt.write a.toNat (byteOperand w))).respond .ok 0#64) := by
  rw [execTwr, if_pos h, returnOk, returnData]

theorem execTwr_illegal {a : Byte} (h : 15 < a.toNat) (w : Word64) (s : State) :
    execTwr a w s = .next (s.recordIllegalCommand.respond .illegalCommand 0#64) := by
  rw [execTwr, if_neg (by omega), raiseIllegalCommand]

theorem execTrd_legal {a : Byte} (h : a.toNat ≤ 15) (s : State) :
    execTrd a s = .next (s.respond .ok (zeroExtendByte (s.txt.read a.toNat))) := by
  rw [execTrd, if_pos h, returnData]

theorem execTrd_illegal {a : Byte} (h : 15 < a.toNat) (s : State) :
    execTrd a s = .next (s.recordIllegalCommand.respond .illegalCommand 0#64) := by
  rw [execTrd, if_neg (by omega), raiseIllegalCommand]

theorem execPwr_stored {a : Byte} (h : a.toNat ≤ 47) (w : Word64) (s : State) :
    execPwr a w s = .next ((s.setPkt (s.pkt.write a.toNat (byteOperand w))).respond .ok 0#64) := by
  rw [execPwr, if_pos h, returnOk, returnData]

theorem execPwr_dropped {a : Byte} (h : 47 < a.toNat) (w : Word64) (s : State) :
    execPwr a w s = .next (s.respond .ok 0#64) := by
  rw [execPwr, if_neg (by omega), returnOk, returnData]

theorem execPrd_legal {a : Byte} (h : a.toNat ≤ 47) (s : State) :
    execPrd a s = .next (s.respond .ok (zeroExtendByte (s.pkt.read a.toNat))) := by
  rw [execPrd, if_pos h, returnData]

theorem execPrd_illegal {a : Byte} (h : 47 < a.toNat) (s : State) :
    execPrd a s = .next (s.recordIllegalCommand.respond .illegalCommand 0#64) := by
  rw [execPrd, if_neg (by omega), raiseIllegalCommand]

theorem execUnpack_short {s : State} (h : s.plen.toNat < 48) :
    execUnpack s = .next (s.recordInvalidPacket.respond .invalidPacket 0#64) := by
  rw [execUnpack, unpack, if_pos (show s.plen.toNat < Config.pktLen from h)]
  rfl

theorem execUnpack_long {s : State} (h : 48 ≤ s.plen.toNat) :
    execUnpack s = .next ((s.setMsg (unpackFields s.pkt)).respond .ok 0#64) := by
  rw [execUnpack, unpack, if_neg (show ¬ s.plen.toNat < Config.pktLen from by rw [Config.pktLen]; omega)]
  rfl

/-! ### Every command -/

/-- Every command answers a next state: the state with some of the block's own pieces changed, and then one response. -/
theorem exec_answers (i : Instr) (s : State) : ∃ (u : State) (r : Resp) (d : Word64),
    exec i s = .next (u.respond r d) ∧ u.responses = s.responses ∧ u.hostEvents = s.hostEvents := by
  cases i with
  | mclr => exact ⟨_, _, _, execMclr_next s, rfl, rfl⟩
  | mset f w => exact ⟨_, _, _, execMset_next f w s, rfl, rfl⟩
  | mget f => exact ⟨_, _, _, execMget_next f s, rfl, rfl⟩
  | tontp w => exact ⟨_, _, _, execTontp_next w s, rfl, rfl⟩
  | frntp w => exact ⟨_, _, _, execFrntp_next w s, rfl, rfl⟩
  | twr a w =>
    rcases Nat.lt_or_ge 15 a.toNat with h | h
    · exact ⟨_, _, _, execTwr_illegal h w s, rfl, rfl⟩
    · exact ⟨_, _, _, execTwr_legal h w s, rfl, rfl⟩
  | trd a =>
    rcases Nat.lt_or_ge 15 a.toNat with h | h
    · exact ⟨_, _, _, execTrd_illegal h s, rfl, rfl⟩
    · exact ⟨_, _, _, execTrd_legal h s, rfl, rfl⟩
  | tsetlen w => exact ⟨_, _, _, execTsetlen_next w s, rfl, rfl⟩
  | ridstr => exact ⟨_, _, _, execRidstr_next s, rfl, rfl⟩
  | ridset => exact ⟨_, _, _, execRidset_next s, rfl, rfl⟩
  | pwr a w =>
    rcases Nat.lt_or_ge 47 a.toNat with h | h
    · exact ⟨_, _, _, execPwr_dropped h w s, rfl, rfl⟩
    · exact ⟨_, _, _, execPwr_stored h w s, rfl, rfl⟩
  | prd a =>
    rcases Nat.lt_or_ge 47 a.toNat with h | h
    · exact ⟨_, _, _, execPrd_illegal h s, rfl, rfl⟩
    · exact ⟨_, _, _, execPrd_legal h s, rfl, rfl⟩
  | psetlen w => exact ⟨_, _, _, execPsetlen_next w s, rfl, rfl⟩
  | pack => exact ⟨_, _, _, execPack_next s, by simp, by simp⟩
  | unpack =>
    rcases Nat.lt_or_ge s.plen.toNat 48 with h | h
    · exact ⟨_, _, _, execUnpack_short h, rfl, rfl⟩
    · exact ⟨_, _, _, execUnpack_long h, rfl, rfl⟩
  | srd => exact ⟨_, _, _, execSrd_next s, rfl, rfl⟩
  | sclr => exact ⟨_, _, _, execSclr_next s, rfl, rfl⟩

/-! ### A step by the host's next event -/

theorem step_of_command {s : State} {c : Command} {rest : List HostEvent} (h : s.hostEvents = .command c :: rest) :
    step s = match decode c with
      | .instr i => exec i { s with hostEvents := rest }
      | .illegal _ => raiseIllegalCommand { s with hostEvents := rest } := by
  cases hd : decode c with
  | instr i => simp only [step, State.takeEvent_eq_some.2 ⟨rest, h, rfl⟩, hd]
  | illegal why => simp only [step, State.takeEvent_eq_some.2 ⟨rest, h, rfl⟩, hd]

theorem step_of_reset {s : State} {rest : List HostEvent} (h : s.hostEvents = .reset :: rest) :
    step s = .next (State.platformReset { s with hostEvents := rest }) := by
  simp only [step, State.takeEvent_eq_some.2 ⟨rest, h, rfl⟩]

end Sys2Proof.Machine
end

