-- ==== Sys2Proof/Laws/PerInstr.lean ====
section
/-! SUPPORT. One family of statements about every instruction as syntax: a well-formed command encodes to a word that
spec 30_encoding.md R74 does not call illegal. -/

namespace Sys2Proof

@[simp] theorem op_encode (i : Instr) : (encode i).op = i.opcode := BitVec.extractLsb'_append_eq_left

@[simp] theorem arg_encode (i : Instr) : (encode i).arg = i.argument := BitVec.extractLsb'_append_eq_right

@[simp] theorem wdata_encode (i : Instr) : (encode i).wdata = i.operand := rfl

namespace Laws.EncodeLegal

/-- A well-formed command's word is legal by the clauses of R74. -/
def Statement (i : Instr) : Prop :=
  i.wellFormed = true → ¬ Machine.illegalWord (encode i).op.toNat (encode i).arg.toNat

/-- The opcode and the argument of a well-formed command are legal: one case for each kind of argument. -/
theorem bytes_legal (i : Instr) (wf : i.wellFormed = true) :
    ¬ Machine.illegalWord i.opcode.toNat i.argument.toNat := by
  cases i with
  | mset f w => cases f <;> simp [Machine.illegalWord, Instr.opcode, Instr.argument, MsgReg.selector]
  | mget f => cases f <;> simp [Machine.illegalWord, Instr.opcode, Instr.argument, MsgReg.selector]
  | _ => simp_all [Machine.illegalWord, Instr.opcode, Instr.argument, Instr.wellFormed]

/-- The statement from the legality of the two bytes. -/
theorem of_bytes (i : Instr) : Statement i := fun wf => by
  rw [op_encode, arg_encode]
  exact bytes_legal i wf

theorem mclr : Statement .mclr := of_bytes _

theorem mset (f : MsgReg) (wdata : Word64) : Statement (.mset f wdata) := of_bytes _

theorem mget (f : MsgReg) : Statement (.mget f) := of_bytes _

theorem tontp (wdata : Word64) : Statement (.tontp wdata) := of_bytes _

theorem frntp (wdata : Word64) : Statement (.frntp wdata) := of_bytes _

theorem twr (a : Byte) (wdata : Word64) : Statement (.twr a wdata) := of_bytes _

theorem trd (a : Byte) : Statement (.trd a) := of_bytes _

theorem tsetlen (wdata : Word64) : Statement (.tsetlen wdata) := of_bytes _

theorem ridstr : Statement .ridstr := of_bytes _

theorem ridset : Statement .ridset := of_bytes _

theorem pwr (a : Byte) (wdata : Word64) : Statement (.pwr a wdata) := of_bytes _

theorem prd (a : Byte) : Statement (.prd a) := of_bytes _

theorem psetlen (wdata : Word64) : Statement (.psetlen wdata) := of_bytes _

theorem pack : Statement .pack := of_bytes _

theorem unpack : Statement .unpack := of_bytes _

theorem srd : Statement .srd := of_bytes _

theorem sclr : Statement .sclr := of_bytes _

end Laws.EncodeLegal

end Sys2Proof
end

