-- ==== Sys2Proof/Tests/Slice0.lean ====
section
/-! SUPPORT. The model's own tests. Expected values are those of spec 95_test_vectors.md and of the rules' examples, or words
written out from 30_encoding.md R73; the last part holds, for each statement with hypotheses, a state and operands that meet
them. -/

namespace Sys2Proof.Tests

open Sys2Proof.Machine

/-- The state an outcome goes on with. -/
def nextOf (o : Host.Outcome State Fault Refusal) : Option State :=
  match o with
  | .next t => some t
  | .fault _ => none
  | .refused _ => none

/-- The last response of an outcome. -/
def answerOf (o : Host.Outcome State Fault Refusal) : Option Response :=
  (nextOf o).bind fun t => t.responses.getLast?

/-- The answer OK with a result. -/
def okWith (d : Word64) : Option Response := some { resp := .ok, rdata := d }

/-- A state with some registers set. -/
def withMsg (m : Message) : State := { State.reset with msg := m }

/-- A state in which the host has one command to send. -/
def offering (cmd : BitVec 16) (wdata : Word64) : State := State.reset.offer { cmd := cmd, wdata := wdata }

/-! ### Well-formedness: an ill-formed term for each check -/

theorem test_wf_twr_16 : (Instr.twr 16#8 0#64).wellFormed = false ∧ (Instr.twr 15#8 0#64).wellFormed = true := by decide
theorem test_wf_trd_16 : (Instr.trd 16#8).wellFormed = false ∧ (Instr.trd 15#8).wellFormed = true := by decide
theorem test_wf_prd_48 : (Instr.prd 48#8).wellFormed = false ∧ (Instr.prd 47#8).wellFormed = true := by decide

/-! ### Decoding: one word per command, written out bit by bit from OP and ARG of R73 -/

theorem test_decode_field_codec :
    decode { cmd := 0b00000001_00000000#16, wdata := 7#64 } = .instr .mclr ∧
    decode { cmd := 0b00000010_00000001#16, wdata := 4#64 } = .instr (.mset .vn 4#64) ∧
    decode { cmd := 0b00000011_00001100#16, wdata := 0#64 } = .instr (.mget .xmtts) := by decide
theorem test_decode_timestamp :
    decode { cmd := 0b00010000_00000000#16, wdata := 5#64 } = .instr (.tontp 5#64) ∧
    decode { cmd := 0b00010001_00000000#16, wdata := 6#64 } = .instr (.frntp 6#64) := by decide
theorem test_decode_refid :
    decode { cmd := 0b00100000_00001111#16, wdata := 0x67#64 } = .instr (.twr 15#8 0x67#64) ∧
    decode { cmd := 0b00100001_00000010#16, wdata := 0#64 } = .instr (.trd 2#8) ∧
    decode { cmd := 0b00100010_00000000#16, wdata := 3#64 } = .instr (.tsetlen 3#64) ∧
    decode { cmd := 0b00100011_00000000#16, wdata := 0#64 } = .instr .ridstr ∧
    decode { cmd := 0b00100100_00000000#16, wdata := 0#64 } = .instr .ridset := by decide
theorem test_decode_packet :
    decode { cmd := 0b00110000_11111111#16, wdata := 0xAA#64 } = .instr (.pwr 255#8 0xAA#64) ∧
    decode { cmd := 0b00110001_00101000#16, wdata := 0#64 } = .instr (.prd 40#8) ∧
    decode { cmd := 0b00110010_00000000#16, wdata := 48#64 } = .instr (.psetlen 48#64) ∧
    decode { cmd := 0b00110011_00000000#16, wdata := 0#64 } = .instr .pack ∧
    decode { cmd := 0b00110100_00000000#16, wdata := 0#64 } = .instr .unpack := by decide
theorem test_decode_system :
    decode { cmd := 0b01000000_00000000#16, wdata := 0#64 } = .instr .srd ∧
    decode { cmd := 0b01000001_00000000#16, wdata := 0#64 } = .instr .sclr := by decide
/-- Table MS and R21: every selector, in order. -/
theorem test_decode_selectors :
    (List.range 16).map (fun f => decodeTableWord 16 (0x0300 + f)) =
      [some (.mget .li), some (.mget .vn), some (.mget .mode), some (.mget .stratum), some (.mget .poll), some (.mget .prec),
       some (.mget .rdelay), some (.mget .rdisp), some (.mget .refid), some (.mget .refts), some (.mget .orgts),
       some (.mget .rects), some (.mget .xmtts), none, none, none] := by decide
/-- Table ILL. -/
theorem test_decode_illegal :
    [0x0000, 0x0101, 0x020D, 0x0210, 0x0400, 0x1001, 0x2010, 0x2500, 0x3130, 0x3500, 0x4200, 0xFFFF].map
      (fun w => decodeTableWord 16 w) = List.replicate 12 none := by decide
theorem test_decode_reasons :
    decode { cmd := 0x0000#16, wdata := 0#64 } = .illegal .unassignedOpcode ∧
    decode { cmd := 0x020D#16, wdata := 0#64 } = .illegal .noSuchRegister ∧
    decode { cmd := 0x2010#16, wdata := 0#64 } = .illegal .noSuchTextByte ∧
    decode { cmd := 0x3130#16, wdata := 0#64 } = .illegal .noSuchPacketByte ∧
    decode { cmd := 0x0101#16, wdata := 0#64 } = .illegal .argumentNotZero := by decide
/-- An operand is the word after the command word: bits 79:16. -/
theorem test_decode_operand_word : decodeTableWord 80 (0x0201 + 4 * 2 ^ 16) = some (.mset .vn 4#64) := by decide

/-! ### Field codec (tables B0, MS, FX) -/

theorem test_mclr_clears : ((nextOf (exec .mclr (withMsg { Message.zero with vn := 4#3 }))).map fun t => t.msg) =
    some Message.zero := by decide
theorem test_mset_vn_9 : ((nextOf (exec (.mset .vn 9#64) State.reset)).map fun t => t.msg.vn) = some 1#3 := by decide
theorem test_mset_prec_minus_20 :
    ((nextOf (exec (.mset .prec 0xFFFFFFFFFFFFFFEC#64) State.reset)).map fun t => t.msg.prec) = some 0xEC#8 := by decide
theorem test_mget_signed :
    answerOf (exec (.mget .prec) (withMsg { Message.zero with prec := 0xEC#8 })) = okWith 0xFFFFFFFFFFFFFFEC#64 ∧
    answerOf (exec (.mget .rdelay) (withMsg { Message.zero with rdelay := 0xFFFF0000#32 })) =
      okWith 0xFFFFFFFFFFFF0000#64 := by decide
theorem test_mget_unsigned :
    answerOf (exec (.mget .stratum) (withMsg { Message.zero with stratum := 0xEC#8 })) = okWith 0xEC#64 ∧
    answerOf (exec (.mget .rdisp) (withMsg { Message.zero with rdisp := 0xFFFF0000#32 })) = okWith 0xFFFF0000#64 := by decide
theorem test_byte0 : packByte0 3#2 4#3 3#3 = 0xE3#8 ∧ unpackByte0 0xE3#8 = (3#2, 4#3, 3#3) ∧
    packByte0 2#2 1#3 5#3 = 0x8D#8 ∧ unpackByte0 0x1C#8 = (0#2, 3#3, 4#3) := by decide
theorem test_fx_value : fxValS 0xFFFF0000#32 = -1 ∧ fxValU 0xFFFF0000#32 = 65535 ∧ fxValS 0x00000C00#32 = 46875 / 1000000 := by
  decide +kernel
theorem test_fx_quantise : fxQuantS (-1 / 131072 : Rat) = 0x00000000#32 ∧ fxQuantS (-3 / 131072 : Rat) = 0xFFFFFFFF#32 ∧
    fxQuantU (131071 / 2 : Rat) = 0xFFFF8000#32 := by
  norm_num [fxQuantS, fxQuantU, roundHalfUp, Config.fxFracBits]
  decide

/-! ### Timestamp converter (tables T1, T2) -/

theorem test_to_ntp :
    [0, 1, 999, -1, 1700000123456, 2085978495999, 2085978496000, 4233462144000, -61505152001, -2208988800001,
      -2208988801000].map toNtpTime =
      [0x83AA7E8000000000#64, 0x83AA7E8000418937#64, 0x83AA7E80FFBE76C8#64, 0x83AA7E7FFFBE76C8#64, 0xE8FE6FFB74BC6A7E#64,
       0xFFFFFFFFFFBE76C8#64, 0x0000000000000000#64, 0x8000000000000000#64, 0xFFFFFFFFFFBE76C8#64, 0xFFFFFFFFFFBE76C9#64,
       0xFFFFFFFF00000000#64] := by decide
theorem test_from_ntp :
    [0x0000000000000000#64, 0x8000000000000000#64, 0x7FFFFFFFFFFFFFFF#64, 0x00000000FFDF3B64#64, 0x83AA7E8010000000#64,
      0x83AA7E80F0000000#64].map fromNtpTime =
      [2085978496000, -61505152000, 4233462144000, 2085978496999, 63, 938] := by decide
theorem test_tontp : answerOf (exec (.tontp 946684800000#64) State.reset) = okWith 0xBC17C20000000000#64 := by decide
theorem test_tontp_negative : answerOf (exec (.tontp 0xFFFFFFFFFFFFFFFF#64) State.reset) = okWith 0x83AA7E7FFFBE76C8#64 := by
  decide
theorem test_frntp : answerOf (exec (.frntp 0xFFFFFFFFFFBE76C8#64) State.reset) = okWith 0x000001E5AE01DBFF#64 := by decide
theorem test_frntp_least : answerOf (exec (.frntp 0x8000000000000000#64) State.reset) = okWith 0xFFFFFFF1AE01DC00#64 := by
  decide

/-! ### Reference identifier (tables RI, RS) -/

theorem test_refid_text :
    refIdToText 0x47#8 0x50#8 0x53#8 0x00#8 1 4 = [0x47#8, 0x50#8, 0x53#8] ∧
    refIdToText 0x47#8 0x00#8 0x53#8 0x00#8 1 3 = [0x47#8, 0x00#8, 0x53#8] ∧
    refIdToText 0x0A#8 0x00#8 0x00#8 0x01#8 15 3 = [0x31#8, 0x30#8, 0x2E#8, 0x30#8, 0x2E#8, 0x30#8, 0x2E#8, 0x31#8] ∧
    refIdToText 0xC0#8 0xA8#8 0x01#8 0x01#8 255 7 = [] := by decide
theorem test_refid_from_text :
    refIdFromText [0x20#8, 0x61#8, 0x20#8, 0x62#8, 0x20#8] = [0x41#8, 0x20#8, 0x42#8, 0x00#8] ∧
    refIdFromText [0x41#8, 0x62#8, 0x31#8, 0x7A#8, 0x7B#8, 0x60#8] = [0x41#8, 0x42#8, 0x31#8, 0x5A#8] ∧
    refIdFromText [0xE9#8, 0x74#8, 0xE9#8] = [0xE9#8, 0x54#8, 0xE9#8, 0x00#8] ∧
    refIdFromText [0x09#8, 0x0A#8] = [0x00#8, 0x00#8, 0x00#8, 0x00#8] := by decide
theorem test_twr : ((nextOf (exec (.twr 0#8 0xFF67#64) State.reset)).map fun t => (t.txt, t.tlen)) =
    some ([(0, 0x67#8)], 0#5) := by decide
theorem test_twr_null_removes : ((nextOf (exec (.twr 3#8 0#64) { State.reset with txt := [(3, 0x53#8)] })).map
    fun t => t.txt) = some [] := by decide
theorem test_trd : answerOf (exec (.trd 2#8) { State.reset with txt := [(2, 0x53#8)] }) = okWith 0x53#64 := by decide
theorem test_tsetlen : ((nextOf (exec (.tsetlen 100#64) State.reset)).map fun t => t.tlen) = some 16#5 ∧
    ((nextOf (exec (.tsetlen 3#64) State.reset)).map fun t => t.tlen) = some 3#5 := by decide
/-- R149's example: 192.168.1.1 at stratum 2, version 3. -/
theorem test_ridstr :
    ((nextOf (exec .ridstr (withMsg { Message.zero with refid := 0xC0A80101#32, stratum := 2#8, vn := 3#3 }))).map
      fun t => (t.tlen, t.txt.readBytes 0 16)) =
    some (11#5, [0x31#8, 0x39#8, 0x32#8, 0x2E#8, 0x31#8, 0x36#8, 0x38#8, 0x2E#8, 0x31#8, 0x2E#8, 0x31#8, 0#8, 0#8, 0#8, 0#8,
      0#8]) := by decide
/-- P4: the old text is overwritten, the tail with nulls. -/
theorem test_ridstr_overwrites :
    ((nextOf (exec .ridstr { withMsg { Message.zero with refid := 0x47505300#32, stratum := 1#8 } with
      txt := [(3, 0x73#8), (4, 0x20#8)], tlen := 5#5 })).map fun t => (t.tlen, t.txt)) =
    some (3#5, [(0, 0x47#8), (1, 0x50#8), (2, 0x53#8)]) := by decide
/-- R150's example: " gps ". -/
theorem test_ridset :
    ((nextOf (exec .ridset { State.reset with
      txt := [(0, 0x20#8), (1, 0x67#8), (2, 0x70#8), (3, 0x73#8), (4, 0x20#8)], tlen := 5#5 })).map fun t => t.msg.refid) =
    some 0x47505300#32 := by decide
theorem test_ridset_reads_tlen_bytes :
    ((nextOf (exec .ridset { State.reset with txt := [(0, 0x61#8), (1, 0x62#8)], tlen := 1#5 })).map fun t => t.msg.refid) =
    some 0x41000000#32 := by decide

/-! ### Packet (tables PK, LEN, programs P1, P3) -/

theorem test_pwr : ((nextOf (exec (.pwr 0#8 0xAA1C#64) State.reset)).map fun t => t.pkt) = some [(0, 0x1C#8)] := by decide
theorem test_pwr_48 : ((nextOf (exec (.pwr 48#8 0xAA#64) State.reset)).map fun t => t.pkt) = some [] ∧
    answerOf (exec (.pwr 48#8 0xAA#64) State.reset) = okWith 0#64 := by decide
theorem test_prd : answerOf (exec (.prd 47#8) { State.reset with pkt := [(47, 0xEC#8)] }) = okWith 0xEC#64 := by decide
theorem test_prd_48 : answerOf (exec (.prd 48#8) State.reset) = some { resp := .illegalCommand, rdata := 0#64 } := by decide
theorem test_psetlen : ((nextOf (exec (.psetlen 1048576#64) State.reset)).map fun t => t.plen) = some 65535#16 ∧
    ((nextOf (exec (.psetlen 48#64) State.reset)).map fun t => t.plen) = some 48#16 := by decide
/-- P1: the packet of a client request. -/
theorem test_pack :
    ((nextOf (exec .pack (withMsg { Message.zero with li := 3#2, vn := 4#3, mode := 3#3, xmtts := 946684800000#64 }))).map
      fun t => (t.pkt.readBytes 0 18, t.pkt.readBytes 38 10, t.plen)) =
    some ([0xE3#8, 0#8, 0#8, 0#8, 0#8, 0#8, 0#8, 0#8, 0#8, 0#8, 0#8, 0#8, 0#8, 0#8, 0#8, 0#8, 0x83#8, 0xAA#8],
      [0#8, 0#8, 0xBC#8, 0x17#8, 0xC2#8, 0#8, 0#8, 0#8, 0#8, 0#8], 48#16) := by decide
/-- Table PK: 48 bytes of 00, and P3: a declared length of 65535. -/
theorem test_unpack_zeros :
    ((nextOf (exec .unpack { withMsg { Message.zero with stratum := 7#8 } with plen := 65535#16 })).map
      fun t => (t.msg.stratum, t.msg.refts, t.msg.xmtts)) = some (0#8, 0x000001E5AE01DC00#64, 0x000001E5AE01DC00#64) := by
  decide
theorem test_unpack_short :
    ((nextOf (exec .unpack { withMsg { Message.zero with stratum := 7#8 } with plen := 47#16 })).map
      fun t => (t.msg.stratum, t.sinv, t.responses)) =
    some (7#8, true, [{ resp := .invalidPacket, rdata := 0#64 }]) := by decide

/-! ### Status (R180, R181) -/

theorem test_srd : answerOf (exec .srd { State.reset with plen := 48#16, tlen := 11#5 }) = okWith 0x0000000000300B00#64 ∧
    answerOf (exec .srd { State.reset with plen := 47#16, sinv := true, sill := true }) = okWith 0x00000000002F0003#64 := by
  decide
theorem test_sclr : ((nextOf (exec .sclr { State.reset with sinv := true, sill := true })).map fun t => (t.sinv, t.sill)) =
    some (false, false) := by decide

/-! ### Steps -/

theorem test_step_illegal :
    ((nextOf (step (offering 0xFF00#16 1#64))).map fun t => (t.sill, t.responses, t.hostEvents)) =
    some (true, [{ resp := .illegalCommand, rdata := 0#64 }], []) := by decide
theorem test_step_fetches : ((nextOf (step (State.reset.withFetchWord 80 (0x0203 + 7 * 2 ^ 16)))).map fun t => t.msg.stratum) =
    some 7#8 := by decide
theorem test_step_reset :
    nextOf (step { State.reset with plen := 48#16, sinv := true, hostEvents := [.reset] }) = some State.reset := by decide

/-! ### Assembler (R77, R78) -/

/-- R77's three examples. -/
theorem test_assemble_examples :
    assembleLine "MSET VN, 4".toList = some [{ cmd := 0x0201#16, wdata := 4#64 }] ∧
    assembleLine "PRD 40 ; a comment".toList = some [{ cmd := 0x3128#16, wdata := 0#64 }] ∧
    assembleLine "TONTP 2085978496000".toList = some [{ cmd := 0x1000#16, wdata := 0x000001E5AE01DC00#64 }] := by decide
theorem test_assemble_forms :
    assembleLine "MSET PREC, -20".toList = some [{ cmd := 0x0205#16, wdata := 0xFFFFFFFFFFFFFFEC#64 }] ∧
    assembleLine ".word 0x020D, 1".toList = some [{ cmd := 0x020D#16, wdata := 1#64 }] ∧
    assembleLine "PLOAD 0x1C, 2".toList = some [{ cmd := 0x3000#16, wdata := 0x1C#64 }, { cmd := 0x3001#16, wdata := 2#64 },
      { cmd := 0x3200#16, wdata := 2#64 }] ∧
    assembleLine "PRD 48".toList = none := by decide
theorem test_assemble_tload : assembleLine "TLOAD \"gp\"".toList =
    some [{ cmd := 0x2000#16, wdata := 0x67#64 }, { cmd := 0x2001#16, wdata := 0x70#64 }, { cmd := 0x2200#16, wdata := 2#64 }] := by
  decide

/-! ### The hypotheses of the statements are met -/

/-- A state with a packet, a text and both flags set that meets the invariant, at its boundaries. -/
def busy : State :=
  { State.reset with pkt := [(0, 0x1C#8), (47, 0xFF#8)], plen := 48#16, txt := [(0, 0x20#8), (15, 0x67#8)], tlen := 16#5,
                     sinv := true, sill := true }

theorem witness_inv : busy.inv = true ∧ State.reset.inv = true := by decide
/-- DecodeOfEncode, at the greatest addresses. -/
theorem witness_wellFormed : [Instr.twr 15#8 0#64, .trd 15#8, .prd 47#8, .pwr 255#8 0#64, .mset .xmtts 0#64].all
    Instr.wellFormed = true := by decide
/-- EncodeOfDecode, StepRunsDecodedCommand, FlagsAreSticky, StateAloneDecidesEffect: a pending legal command. -/
theorem witness_legal_command : (offering 0x3400#16 0#64).hostEvents = [.command { cmd := 0x3400#16, wdata := 0#64 }] ∧
    decode { cmd := 0x3400#16, wdata := 0#64 } = .instr .unpack := by decide
/-- IllegalWordsExactly, IllegalCommandEffects: each clause of R74 at its boundary, and its legal neighbour. -/
theorem witness_illegal_clauses :
    (illegalWord 0x00 0x00 ∧ ¬ illegalWord 0x01 0x00) ∧ (illegalWord 0x02 0x0D ∧ ¬ illegalWord 0x02 0x0C) ∧
    (illegalWord 0x20 0x10 ∧ ¬ illegalWord 0x20 0x0F) ∧ (illegalWord 0x31 0x30 ∧ ¬ illegalWord 0x31 0x2F) ∧
    (illegalWord 0x41 0x01 ∧ ¬ illegalWord 0x41 0x00) := by
  simp [illegalWord]
theorem witness_illegal_command : (offering 0x3130#16 0#64).hostEvents = [.command { cmd := 0x3130#16, wdata := 0#64 }] ∧
    illegalWord (Command.op { cmd := 0x3130#16, wdata := 0#64 }).toNat
      (Command.arg { cmd := 0x3130#16, wdata := 0#64 }).toNat := by
  unfold illegalWord
  decide
/-- ResetZeroesEverything and IdleKeepsState. -/
theorem witness_reset_event : ({ busy with hostEvents := [.reset] } : State).hostEvents = [.reset] ∧ busy.hostEvents = [] := by
  decide
/-- StepKeepsInvariant: a step from a state of the invariant. -/
theorem witness_step_inv : (busy.offer { cmd := 0x2300#16, wdata := 0#64 }).inv = true ∧
    ((nextOf (step (busy.offer { cmd := 0x2300#16, wdata := 0#64 }))).map State.inv) = some true := by decide
/-- FailureIsPrecise: a failed command, by each code. -/
theorem witness_failures :
    ((nextOf (step (offering 0x3400#16 0#64))).map fun t => t.responses) = some ([] ++ [{ resp := .invalidPacket, rdata := 0#64 }]) ∧
    ((nextOf (step (offering 0x0000#16 0#64))).map fun t => t.responses) =
      some ([] ++ [{ resp := .illegalCommand, rdata := 0#64 }]) := by decide
/-- FlagsTellOfEveryFailure: a run of one failing and one succeeding command that clear no flag. -/
theorem witness_clean_run :
    let s := { State.reset with hostEvents := [.command { cmd := 0x3400#16, wdata := 0#64 }, .command { cmd := 0x4000#16, wdata := 0#64 }] }
    s.unflagged = true ∧ (∀ e ∈ s.hostEvents.take 2, e.clearsFlags = false) ∧
    ((nextOf (core.run 2 s)).map fun t => (t.responses.length, t.unflagged)) = some (2, false) := by decide
/-- StateAloneDecidesEffect: two states that agree on R20 and differ in what the host has received. -/
theorem witness_same_block :
    let c : Command := { cmd := 0x4000#16, wdata := 0#64 }
    State.sameBlock (busy.offer c) ({ busy with responses := [{ resp := .ok, rdata := 1#64 }] }.offer c) := by
  simp [State.sameBlock, State.offer]
/-- FlagsReadBySrdAlone, LengthsReadByFew, ReadsHaveNoEffect: commands that meet the side conditions. -/
theorem witness_commands : Instr.unpack ≠ .srd ∧ Instr.pack ≠ .unpack ∧ Instr.pack ≠ .ridset ∧ Instr.pack ≠ .srd ∧
    (∃ a, Instr.prd 47#8 = .prd a) ∧ (Instr.prd 47#8).wellFormed = true := by
  refine ⟨by decide, by decide, by decide, by decide, ⟨_, rfl⟩, by decide⟩
/-- BigEndianAccess: a canonical buffer. -/
theorem witness_canonical : busy.pkt.wf = true := by decide
/-- MclrZeroesRegisters to SclrClearsFlags: OP and ARG of a word at each side of each command's legal range. -/
theorem witness_op_arg :
    Command.op { cmd := 0x3130#16, wdata := 0#64 } = 0x31#8 ∧ Command.arg { cmd := 0x3130#16, wdata := 0#64 } = 0x30#8 ∧
    Command.op { cmd := 0x0100#16, wdata := 0#64 } = 0x01#8 ∧ Command.arg { cmd := 0x0100#16, wdata := 0#64 } = 0x00#8 ∧
    Command.arg { cmd := 0x020C#16, wdata := 0#64 } = MsgReg.xmtts.selector ∧
    Command.op { cmd := 0x0200#16, wdata := 0#64 } = 0x02#8 ∧ Command.arg { cmd := 0x0200#16, wdata := 0#64 } = 0x00#8 ∧
    Command.op { cmd := 0x030C#16, wdata := 0#64 } = 0x03#8 ∧ Command.arg { cmd := 0x030C#16, wdata := 0#64 } = 0x0C#8 := by decide
/-- MsetStoresLowBits and RidsetStoresIdentifier: another register than the one written. -/
theorem witness_other_register : MsgReg.li ≠ .refid ∧ MsgReg.xmtts ≠ .li := by decide
/-- QuantiserLaws, MsetqQuantises: a rational at the lower end of each range. -/
theorem witness_rational : (-32768 - 1 / 131072 : Rat) ≤ -32768 - 1 / 131072 ∧ (-32768 - 1 / 131072 : Rat) < 32768 - 1 / 131072 ∧
    (0 - 1 / 131072 : Rat) ≤ 0 - 1 / 131072 ∧ (0 - 1 / 131072 : Rat) < 65536 - 1 / 131072 := by norm_num
/-- ToNtpTimeFrom1900, ToNtpTimeBefore1900, EraBitAtTheBoundary, MillisecondsRoundTrip: the ends of the ranges. -/
theorem witness_epochs : (-2208988800000 : Int) ≤ -2208988800000 ∧ (-2208988800001 : Int) < -2208988800000 ∧
    (-2208988800000 - -2208988801000 : Int) % 1000 = 0 ∧ (-2208988800000 - -2208988800001 : Int) % 1000 ≠ 0 ∧
    (4233462143999 : Int) < 4233462144000 ∧ (-61505152000 : Int) < 4233462144000 ∧ (-2208988800000 : Int) < -61505152000 ∧
    (4233462144000 : Int) < 4233462144000 + 2147483648000 := by decide
/-- TimestampRoundTrip: fractions with `fm` below 1000 and with `fm` 1000 (table T2). -/
theorem witness_fractions : (1000 * 0xFFDF3B64 + 2 ^ 31) / 2 ^ 32 = 999 ∧ (1000 * 0xFFDF3B65 + 2 ^ 31) / 2 ^ 32 = 1000 := by decide
/-- RefIdTextByCase: a stratum and a version for each case, and RefIdTextInverse: "GPS" and a null. -/
theorem witness_refid : (1 ≤ 1 ∧ 2 ≤ 2) ∧
    (∀ b ∈ [0x47#8, 0x50#8, 0x53#8, 0x00#8].take 3, 0x20 < b.toNat ∧ (b.toNat < 0x61 ∨ 0x7A < b.toNat)) ∧
    (∀ b ∈ [0x47#8, 0x50#8, 0x53#8, 0x00#8].drop 3, b = 0x00#8) := by decide
/-- TwrStoresByte, TrdReturnsByte, PrdReturnsByte, PwrStoresByte: addresses at both sides of each limit. -/
theorem witness_addresses : (15#8).toNat ≤ 15 ∧ 15 < (16#8).toNat ∧ (47#8).toNat ≤ 47 ∧ 47 < (48#8).toNat := by decide
/-- UnpackReadsPacket, PackAfterUnpack, InvalidPacketEffects: a length at each side of 48. -/
theorem witness_lengths : 48 ≤ busy.plen.toNat ∧ ({ busy with plen := 47#16 } : State).plen.toNat < 48 := by decide
/-- PloadSuppliesBuffer, TloadSuppliesText: the longest strings. -/
theorem witness_strings : (List.replicate 256 0x41#8).length ≤ 256 ∧ (List.replicate 16 0x41#8).length ≤ 16 :=
  ⟨List.length_replicate.le, List.length_replicate.le⟩

end Sys2Proof.Tests
end

section
/-! PROOFS. What a command can do to the block, as data: one of eleven changes and one response, fixed by the pieces of state
the command reads. The statements on who writes what, who reads what, the flags and the invariant are read off it. -/

namespace Sys2Proof.Machine

/-- The changes a command can make to the state of spec 10_state.md R20. -/
inductive Change where
  | nothing
  | message (m : Message)
  | packetByte (a : Nat) (b : Byte)
  | packet (m : Message)
  | packetLength (n : BitVec 16)
  | textByte (a : Nat) (b : Byte)
  | text (t : List Byte)
  | textLength (n : BitVec 5)
  | invalidPacket
  | illegalCommand
  | flagsCleared

/-- The state after a change. -/
def Change.apply (s : State) : Change → State
  | .nothing => s
  | .message m => s.setMsg m
  | .packetByte a b => s.setPkt (s.pkt.write a b)
  | .packet m => (s.setPkt (packInto s.pkt m)).setPlen (BitVec.ofNat 16 Config.pktLen)
  | .packetLength n => s.setPlen n
  | .textByte a b => s.setTxt (s.txt.write a b)
  | .text t => (s.setTxt (s.txt.writeBytes 0 (fitTo Config.txtMax t))).setTlen (BitVec.ofNat 5 t.length)
  | .textLength n => s.setTlen n
  | .invalidPacket => s.recordInvalidPacket
  | .illegalCommand => s.recordIllegalCommand
  | .flagsCleared => s.clearFlags

/-- The response code that goes with a change (60_exceptions.md R200). -/
def Change.resp : Change → Resp
  | .invalidPacket => .invalidPacket
  | .illegalCommand => .illegalCommand
  | _ => .ok

/-- The commands that may make a change (10_state.md R21, R29 to R31); every command may change nothing, and the failed address
check of R202 is not told apart by command. -/
def Change.MadeBy (i : Instr) : Change → Prop
  | .nothing => True
  | .message _ => i = .mclr ∨ (∃ f w, i = .mset f w) ∨ i = .unpack ∨ i = .ridset
  | .packetByte _ _ => ∃ a w, i = .pwr a w
  | .packet _ => i = .pack
  | .packetLength _ => ∃ w, i = .psetlen w
  | .textByte _ _ => ∃ a w, i = .twr a w
  | .text _ => i = .ridstr
  | .textLength _ => ∃ w, i = .tsetlen w
  | .invalidPacket => i = .unpack
  | .illegalCommand => True
  | .flagsCleared => i = .sclr

/-- The addresses and text lengths of a change are inside the block's (20_memory.md R40, R41, 10_state.md R30). -/
def Change.InRange : Change → Prop
  | .packetByte a _ => a < 48
  | .textByte a _ => a < 16
  | .text t => t.length ≤ 16
  | .textLength n => n.toNat ≤ 16
  | _ => True

/-- Two states agree on every piece the command `i` may read: a length and the status word count only for the commands that
read them (10_state.md R29 to R31). -/
structure State.ReadsAlike (i : Instr) (s s' : State) : Prop where
  msg    : s'.msg = s.msg
  pkt    : s'.pkt = s.pkt
  txt    : s'.txt = s.txt
  plen   : i = .unpack → s'.plen = s.plen
  tlen   : i = .ridset → s'.tlen = s.tlen
  status : i = .srd → s'.statusWord = s.statusWord

theorem State.ReadsAlike.refl (i : Instr) (s : State) : s.ReadsAlike i s :=
  ⟨rfl, rfl, rfl, fun _ => rfl, fun _ => rfl, fun _ => rfl⟩

/-- Every command makes one change, of its own and in range, and gives one response; both are the same in every state that
agrees with this one on what the command reads. -/
theorem exec_change (i : Instr) (s : State) : ∃ (c : Change) (d : Word64), c.MadeBy i ∧ c.InRange ∧
    ∀ s', s.ReadsAlike i s' → exec i s' = .next ((c.apply s').respond c.resp d) := by
  cases i with
  | mclr => exact ⟨.message Message.zero, 0#64, .inl rfl, trivial, fun s' _ => execMclr_next s'⟩
  | mset f w =>
    exact ⟨.message (s.msg.set f (truncateTo f w)), 0#64, .inr (.inl ⟨f, w, rfl⟩), trivial,
      fun s' alike => alike.msg ▸ execMset_next f w s'⟩
  | mget f => exact ⟨.nothing, s.msg.extended f, trivial, trivial, fun s' alike => alike.msg ▸ execMget_next f s'⟩
  | tontp w => exact ⟨.nothing, _, trivial, trivial, fun s' _ => execTontp_next w s'⟩
  | frntp w => exact ⟨.nothing, _, trivial, trivial, fun s' _ => execFrntp_next w s'⟩
  | twr a w =>
    rcases Nat.lt_or_ge 15 a.toNat with h | h
    · exact ⟨.illegalCommand, _, trivial, trivial, fun s' _ => execTwr_illegal h w s'⟩
    · exact ⟨.textByte a.toNat (byteOperand w), _, ⟨a, w, rfl⟩, Nat.lt_succ_of_le h, fun s' _ => execTwr_legal h w s'⟩
  | trd a =>
    rcases Nat.lt_or_ge 15 a.toNat with h | h
    · exact ⟨.illegalCommand, _, trivial, trivial, fun s' _ => execTrd_illegal h s'⟩
    · exact ⟨.nothing, zeroExtendByte (s.txt.read a.toNat), trivial, trivial,
        fun s' alike => alike.txt ▸ execTrd_legal h s'⟩
  | tsetlen w =>
    exact ⟨.textLength (saturatedTextLength w), _, ⟨w, rfl⟩, by simp [Change.InRange], fun s' _ => execTsetlen_next w s'⟩
  | ridstr =>
    exact ⟨.text s.msg.refidText, _, rfl, length_refIdToText_le .., fun s' alike => alike.msg ▸ execRidstr_next s'⟩
  | ridset =>
    refine ⟨.message (s.msg.set .refid (wordOfBytes (refIdFromText s.text))), 0#64, .inr (.inr (.inr rfl)), trivial,
      fun s' alike => ?_⟩
    have text : s'.text = s.text := by rw [State.text, State.text, alike.txt, alike.tlen rfl]
    exact text ▸ alike.msg ▸ execRidset_next s'
  | pwr a w =>
    rcases Nat.lt_or_ge 47 a.toNat with h | h
    · exact ⟨.nothing, _, trivial, trivial, fun s' _ => execPwr_dropped h w s'⟩
    · exact ⟨.packetByte a.toNat (byteOperand w), _, ⟨a, w, rfl⟩, Nat.lt_succ_of_le h,
        fun s' _ => execPwr_stored h w s'⟩
  | prd a =>
    rcases Nat.lt_or_ge 47 a.toNat with h | h
    · exact ⟨.illegalCommand, _, trivial, trivial, fun s' _ => execPrd_illegal h s'⟩
    · exact ⟨.nothing, zeroExtendByte (s.pkt.read a.toNat), trivial, trivial,
        fun s' alike => alike.pkt ▸ execPrd_legal h s'⟩
  | psetlen w =>
    exact ⟨.packetLength (saturatedPacketLength w), _, ⟨w, rfl⟩, trivial, fun s' _ => execPsetlen_next w s'⟩
  | pack => exact ⟨.packet s.msg, _, rfl, trivial, fun s' alike => alike.msg ▸ execPack_next s'⟩
  | unpack =>
    rcases Nat.lt_or_ge s.plen.toNat 48 with h | h
    · exact ⟨.invalidPacket, _, rfl, trivial, fun s' alike => execUnpack_short (alike.plen rfl ▸ h)⟩
    · exact ⟨.message (unpackFields s.pkt), _, .inr (.inr (.inl rfl)), trivial,
        fun s' alike => alike.pkt ▸ execUnpack_long (alike.plen rfl ▸ h)⟩
  | srd => exact ⟨.nothing, s.statusWord, trivial, trivial, fun s' alike => alike.status rfl ▸ execSrd_next s'⟩
  | sclr => exact ⟨.flagsCleared, _, rfl, trivial, fun s' _ => execSclr_next s'⟩

/-- A step on a command makes one change in range; it clears the flags only for the word of `SCLR`. -/
theorem step_change {s : State} {c : Command} {rest : List HostEvent} (h : s.hostEvents = .command c :: rest) :
    ∃ (ch : Change) (d : Word64), (ch = .flagsCleared → decode c = .instr .sclr) ∧ ch.InRange ∧
      step s = .next ((ch.apply { s with hostEvents := rest }).respond ch.resp d) := by
  rw [step_of_command h]
  cases decode c with
  | instr i =>
    obtain ⟨ch, d, made, range, run⟩ := exec_change i { s with hostEvents := rest }
    refine ⟨ch, d, ?_, range, run _ (.refl ..)⟩
    rintro rfl
    exact congrArg _ made
  | illegal why => exact ⟨.illegalCommand, 0#64, nofun, trivial, rfl⟩

theorem step_of_idle {s : State} (h : s.hostEvents = []) : step s = .next s := by
  simp only [step, State.takeEvent_eq_none.2 h]

/-! ### What a change leaves unchanged -/

@[simp] theorem Change.apply_responses (c : Change) (s : State) : (c.apply s).responses = s.responses := by
  cases c <;> simp [Change.apply]

@[simp] theorem Change.apply_hostEvents (c : Change) (s : State) : (c.apply s).hostEvents = s.hostEvents := by
  cases c <;> simp [Change.apply]

theorem Change.apply_sinv (c : Change) (s : State) (keeps : c ≠ .flagsCleared) :
    (c.apply s).sinv = true ↔ s.sinv = true ∨ c.resp = .invalidPacket := by
  cases c with
  | flagsCleared => exact absurd rfl keeps
  | _ => simp [Change.apply, Change.resp]

theorem Change.apply_sill (c : Change) (s : State) (keeps : c ≠ .flagsCleared) :
    (c.apply s).sill = true ↔ s.sill = true ∨ c.resp = .illegalCommand := by
  cases c with
  | flagsCleared => exact absurd rfl keeps
  | _ => simp [Change.apply, Change.resp]

/-! ### Each piece after a change depends on the change and that piece alone -/

theorem Change.apply_msg_congr (c : Change) {s s' : State} (same : s'.msg = s.msg) :
    (c.apply s').msg = (c.apply s).msg := by
  cases c <;> simp [Change.apply, same]

theorem Change.apply_pkt_congr (c : Change) {s s' : State} (same : s'.pkt = s.pkt) :
    (c.apply s').pkt = (c.apply s).pkt := by
  cases c <;> simp [Change.apply, same]

theorem Change.apply_plen_congr (c : Change) {s s' : State} (same : s'.plen = s.plen) :
    (c.apply s').plen = (c.apply s).plen := by
  cases c <;> simp [Change.apply, same]

theorem Change.apply_txt_congr (c : Change) {s s' : State} (same : s'.txt = s.txt) :
    (c.apply s').txt = (c.apply s).txt := by
  cases c <;> simp [Change.apply, same]

theorem Change.apply_tlen_congr (c : Change) {s s' : State} (same : s'.tlen = s.tlen) :
    (c.apply s').tlen = (c.apply s).tlen := by
  cases c <;> simp [Change.apply, same]

theorem Change.apply_sinv_congr (c : Change) {s s' : State} (same : s'.sinv = s.sinv) :
    (c.apply s').sinv = (c.apply s).sinv := by
  cases c <;> simp [Change.apply, same]

theorem Change.apply_sill_congr (c : Change) {s s' : State} (same : s'.sill = s.sill) :
    (c.apply s').sill = (c.apply s).sill := by
  cases c <;> simp [Change.apply, same]

/-! ### The invariant -/

/-- A change in range keeps the invariant. -/
theorem Change.inv_apply {c : Change} (range : c.InRange) {s : State} (h : s.inv = true) : (c.apply s).inv = true := by
  obtain ⟨pktWf, pktIn, txtWf, txtIn, tlen⟩ := State.inv_iff.1 h
  cases c with
  | packetByte a b =>
    exact State.inv_iff.2 ⟨Memory.wf_write _ pktWf a b, Memory.within_write _ pktIn range b, txtWf, txtIn, tlen⟩
  | packet m =>
    simp [Change.apply, State.inv_iff, wf_packInto _ pktWf m, within_packInto _ pktIn m, txtWf, txtIn, tlen]
  | textByte a b =>
    exact State.inv_iff.2 ⟨pktWf, pktIn, Memory.wf_write _ txtWf a b, Memory.within_write _ txtIn range b, tlen⟩
  | text t =>
    have short : t.length ≤ 16 := range
    have fits : 0 + (fitTo Config.txtMax t).length ≤ 16 := by rw [length_fitTo, Config.txtMax]
    refine State.inv_iff.2
      ⟨pktWf, pktIn, Memory.wf_writeBytes _ txtWf 0 _, Memory.within_writeBytes _ txtIn 0 _ fits, ?_⟩
    rw [Change.apply, State.setTlen_tlen, BitVec.toNat_ofNat]
    omega
  | textLength n => exact State.inv_iff.2 ⟨pktWf, pktIn, txtWf, txtIn, range⟩
  | _ => exact h

/-- Settles O9: a step is idle, a reset, or a change in range, and each keeps the invariant. -/
theorem stepKeepsInvariant : Obligations.StepKeepsInvariant := by
  intro s t inv run
  match events : s.hostEvents with
  | [] =>
    obtain rfl : s = t := Host.Outcome.next.inj ((step_of_idle events).symm.trans run)
    exact inv
  | .reset :: rest =>
    obtain rfl := Host.Outcome.next.inj ((step_of_reset events).symm.trans run)
    rfl
  | .command c :: rest =>
    obtain ⟨ch, d, -, range, out⟩ := step_change events
    obtain rfl := Host.Outcome.next.inj (out.symm.trans run)
    exact Change.inv_apply (s := { s with hostEvents := rest }) range inv

/-! ### The flags -/

/-- Settles O13: of all changes only `flagsCleared`, which `SCLR` alone makes, takes a flag back. -/
theorem flagsAreSticky : Obligations.FlagsAreSticky := by
  intro s c rest events notSclr
  obtain ⟨ch, d, clears, -, out⟩ := step_change events
  have keeps : ch ≠ .flagsCleared := fun eq => notSclr (clears eq)
  exact ⟨_, { resp := ch.resp, rdata := d }, out, by simp, ch.apply_sinv _ keeps, ch.apply_sill _ keeps⟩

/-- Settles O16: states that differ in the flags read alike for every command but `SRD`. -/
theorem flagsReadBySrdAlone : Obligations.FlagsReadBySrdAlone := by
  intro i s inv ill notSrd
  obtain ⟨c, d, -, -, run⟩ := exec_change i s
  have alike : s.ReadsAlike i { s with sinv := inv, sill := ill } :=
    ⟨rfl, rfl, rfl, fun _ => rfl, fun _ => rfl, fun eq => absurd eq notSrd⟩
  exact ⟨_, _, { resp := c.resp, rdata := d }, run _ (.refl ..), run _ alike, by simp, by simp,
    State.ext_fields (c.apply_msg_congr rfl) (c.apply_pkt_congr rfl) (c.apply_plen_congr rfl) (c.apply_txt_congr rfl)
      (c.apply_tlen_congr rfl) rfl rfl (by simp) (by simp)⟩

/-! ### The lengths -/

/-- Settles O17: states that differ in the lengths read alike for every command but `SRD`, `UNPACK` and `RIDSET`. -/
theorem lengthsReadByFew : Obligations.LengthsReadByFew := by
  intro i s p n notSrd notUnpack notRidset
  obtain ⟨c, d, -, -, run⟩ := exec_change i s
  have alike : s.ReadsAlike i { s with plen := p, tlen := n } :=
    ⟨rfl, rfl, rfl, fun eq => absurd eq notUnpack, fun eq => absurd eq notRidset, fun eq => absurd eq notSrd⟩
  exact ⟨_, _, { resp := c.resp, rdata := d }, run _ (.refl ..), run _ alike, by simp, by simp,
    State.ext_fields (c.apply_msg_congr rfl) (c.apply_pkt_congr rfl) rfl (c.apply_txt_congr rfl) rfl
      (c.apply_sinv_congr rfl) (c.apply_sill_congr rfl) (by simp) (by simp)⟩

/-! ### Who writes what -/

/-- A piece of state that differs after a change names the commands that make the change. -/
theorem Change.writers {c : Change} {i : Instr} (made : c.MadeBy i) (s : State) :
    ((c.apply s).msg ≠ s.msg → i = .mclr ∨ (∃ f w, i = .mset f w) ∨ i = .unpack ∨ i = .ridset) ∧
    ((c.apply s).pkt ≠ s.pkt → (∃ a w, i = .pwr a w) ∨ i = .pack) ∧
    ((c.apply s).plen ≠ s.plen → (∃ w, i = .psetlen w) ∨ i = .pack) ∧
    ((c.apply s).txt ≠ s.txt → (∃ a w, i = .twr a w) ∨ i = .ridstr) ∧
    ((c.apply s).tlen ≠ s.tlen → (∃ w, i = .tsetlen w) ∨ i = .ridstr) := by
  refine ⟨fun ne => ?_, fun ne => ?_, fun ne => ?_, fun ne => ?_, fun ne => ?_⟩
  · cases c with
    | message m => exact made
    | _ => simp [Change.apply] at ne
  · cases c with
    | packetByte a b => exact .inl made
    | packet m => exact .inr made
    | _ => simp [Change.apply] at ne
  · cases c with
    | packetLength n => exact .inl made
    | packet m => exact .inr made
    | _ => simp [Change.apply] at ne
  · cases c with
    | textByte a b => exact .inl made
    | text t => exact .inr made
    | _ => simp [Change.apply] at ne
  · cases c with
    | textLength n => exact .inl made
    | text t => exact .inr made
    | _ => simp [Change.apply] at ne

/-- Settles O18: every command's change is one of its own. -/
theorem writersOfEachPiece : Obligations.WritersOfEachPiece := by
  intro i s
  obtain ⟨c, d, made, -, run⟩ := exec_change i s
  exact ⟨_, run s (.refl ..), by simp, Change.writers made s⟩

end Sys2Proof.Machine
end

section
/-! PROOFS. The reset event, and the two commands that write and read one message register. -/

namespace Sys2Proof.Machine

/-- Settles O7: the reset event brings the block to the pieces of `State.reset`, and those are 0. -/
theorem resetZeroesEverything : Obligations.ResetZeroesEverything := by
  intro s rest events
  refine ⟨_, step_of_reset events, rfl, rfl, fun u reset => ?_⟩
  rcases reset with rfl | rfl <;> simp [unlistedByte]

/-! ### The register an argument byte selects -/

theorem ofSelector_selector (f : MsgReg) : MsgReg.ofSelector f.selector = some f := by
  cases f <;> rfl

theorem ofSelector_of_gt {arg : Byte} (h : 0x0C < arg.toNat) : MsgReg.ofSelector arg = none := by
  have ne {b : Byte} (le : b.toNat ≤ 0x0C) : arg ≠ b := by
    rintro rfl
    omega
  simp [MsgReg.ofSelector, ne]

/-- The table of 10_state.md R21: selector, register, width. -/
def registerTable : List (Byte × MsgReg × Nat) :=
  [(0x00#8, .li, 2), (0x01#8, .vn, 3), (0x02#8, .mode, 3), (0x03#8, .stratum, 8), (0x04#8, .poll, 8), (0x05#8, .prec, 8),
    (0x06#8, .rdelay, 32), (0x07#8, .rdisp, 32), (0x08#8, .refid, 32), (0x09#8, .refts, 64), (0x0A#8, .orgts, 64),
    (0x0B#8, .rects, 64), (0x0C#8, .xmtts, 64)]

theorem registerTable_row : ∀ row ∈ registerTable, row.1 = row.2.1.selector ∧ row.2.1.width = row.2.2 := by
  decide

theorem withField_selector (make : MsgReg → Instr) (f : MsgReg) : withField f.selector make = .instr (make f) := by
  rw [withField, ofSelector_selector]

/-- A command with a register argument decodes by R21's table, and from 0x0D on its word is illegal (30_encoding.md R74). -/
theorem withField_by_table (arg : Byte) (make : MsgReg → Instr) :
    (∀ f : MsgReg, arg = f.selector → withField arg make = .instr (make f)) ∧
    (∀ row ∈ registerTable, row.2.1.width = row.2.2 ∧ (arg = row.1 → withField arg make = .instr (make row.2.1))) ∧
    (0x0C < arg.toNat → withField arg make = .illegal .noSuchRegister) := by
  refine ⟨fun f eq => eq ▸ withField_selector make f, fun row mem => ?_, fun gt => ?_⟩
  · obtain ⟨selector, width⟩ := registerTable_row row mem
    exact ⟨width, fun eq => eq ▸ selector ▸ withField_selector make row.2.1⟩
  · rw [withField, ofSelector_of_gt gt]

theorem decode_mset {c : Command} (h : c.op = 0x02#8) : decode c = withField c.arg fun f => .mset f c.wdata := by
  simp [decode, h]

theorem decode_mget {c : Command} (h : c.op = 0x03#8) : decode c = withField c.arg .mget := by
  simp [decode, h]

/-! ### `MSET` and `MGET` -/

/-- Settles O22, by R21's table and the laws of the register file. -/
theorem msetStoresLowBits : Obligations.MsetStoresLowBits := by
  refine ⟨fun c op => decode_mset op ▸ withField_by_table c.arg _, fun f w s => ?_⟩
  refine ⟨_, execMset_next f w s, ⟨rfl, rfl⟩, ?_, fun g ne => Message.get_set_other s.msg f g _ ne,
    fun _ => rfl, fun _ => rfl, ⟨rfl, rfl⟩, ⟨rfl, rfl⟩⟩
  simp

/-- 40_field_codec.md R110: which registers `MGET` reads as signed numbers. -/
theorem Message.extended_value (m : Message) (f : MsgReg) :
    if f ∈ [MsgReg.poll, .prec, .rdelay, .refts, .orgts, .rects, .xmtts] then (m.extended f).toInt = (m.get f).toInt
    else (m.extended f).toNat = (m.get f).toNat := by
  cases f with
  | poll => exact BitVec.toInt_signExtend_of_le (by decide)
  | prec => exact BitVec.toInt_signExtend_of_le (by decide)
  | rdelay => exact BitVec.toInt_signExtend_of_le (by decide)
  | refts => rfl
  | orgts => rfl
  | rects => rfl
  | xmtts => rfl
  | _ => exact BitVec.toNat_setWidth_of_le (by decide)

/-- Settles O23, by R21's table and the value of an extended register. -/
theorem mgetReturnsValue : Obligations.MgetReturnsValue := by
  refine ⟨fun c op => decode_mget op ▸ withField_by_table c.arg _, fun f s => ?_⟩
  exact ⟨_, _, execMget_next f s, ⟨rfl, rfl⟩, ⟨rfl, rfl, rfl, rfl, rfl, rfl, rfl⟩, s.msg.extended_value f⟩

end Sys2Proof.Machine
end

section
/-! PROOFS. Memory access: the commands that only read, what a command leaves of the packet and the message, and the big-endian
accesses byte by byte (spec 20_memory.md R44 to R51). -/

namespace Sys2Proof.Machine

/-! ### Idempotence -/

/-- A response is not part of the block's state. -/
theorem State.sameBlock_respond (s : State) (r : Resp) (d : Word64) : s.sameBlock (s.respond r d) :=
  ⟨rfl, rfl, rfl, rfl, rfl, rfl, rfl⟩

theorem State.readsAlike_respond (i : Instr) (s : State) (r : Resp) (d : Word64) : s.ReadsAlike i (s.respond r d) :=
  ⟨rfl, rfl, rfl, fun _ => rfl, fun _ => rfl, fun _ => rfl⟩

/-- A reading command with a legal word does nothing but answer, and answers alike in every state that reads alike. -/
theorem exec_of_reads {i : Instr} (s : State)
    (reads : (∃ a, i = .prd a) ∨ (∃ a, i = .trd a) ∨ (∃ f, i = .mget f) ∨ i = .srd) (wf : i.wellFormed = true) :
    ∃ d, ∀ s', s.ReadsAlike i s' → exec i s' = .next (s'.respond .ok d) := by
  rcases reads with ⟨a, rfl⟩ | ⟨a, rfl⟩ | ⟨f, rfl⟩ | rfl
  · exact ⟨zeroExtendByte (s.pkt.read a.toNat), fun s' alike => alike.pkt ▸ execPrd_legal (of_decide_eq_true wf) s'⟩
  · exact ⟨zeroExtendByte (s.txt.read a.toNat), fun s' alike => alike.txt ▸ execTrd_legal (of_decide_eq_true wf) s'⟩
  · exact ⟨s.msg.extended f, fun s' alike => alike.msg ▸ execMget_next f s'⟩
  · exact ⟨s.statusWord, fun s' alike => alike.status rfl ▸ execSrd_next s'⟩

/-- On a canonical buffer the last of two writes at one address is the only one that counts. -/
theorem Memory.write_write_same (m : Memory) (h : m.wf = true) (a : Nat) (b c : Byte) :
    (m.write a b).write a c = m.write a c := by
  have hb := Memory.wf_write m h a b
  refine Memory.eq_of_read _ _ (Memory.wf_write _ hb a c) (Memory.wf_write m h a c) fun x => ?_
  rw [Memory.read_write _ hb, Memory.read_write m h, Memory.read_write m h]
  split_ifs <;> rfl

/-- A second `PWR` of one byte to one address leaves the block as the first one did (20_memory.md R51). -/
theorem exec_pwr_repeated (a : Byte) (w : Word64) {s : State} (h : s.pkt.wf = true) :
    ∃ t u, exec (.pwr a w) s = .next t ∧ exec (.pwr a w) t = .next u ∧ t.sameBlock u := by
  rcases Nat.lt_or_ge 47 a.toNat with dropped | stored
  · exact ⟨_, _, execPwr_dropped dropped w s, execPwr_dropped dropped w _, State.sameBlock_respond ..⟩
  · exact ⟨_, _, execPwr_stored stored w s, execPwr_stored stored w _,
      rfl, Memory.write_write_same s.pkt h .., rfl, rfl, rfl, rfl, rfl⟩

/-- Settles O19: a reading command gives a response alone, a repeated write is absorbed, and `UNPACK` and `PACK` are not among
the writers of the pieces they leave. -/
theorem readsHaveNoEffect : Obligations.ReadsHaveNoEffect := by
  refine ⟨fun i s reads wf => ?_, fun a w s inv => ?_, fun s => ?_, fun s => ?_⟩
  · obtain ⟨d, run⟩ := exec_of_reads s reads wf
    exact ⟨_, _, d, run s (.refl ..), ⟨rfl, rfl⟩, s.sameBlock_respond .., run _ (s.readsAlike_respond ..), ⟨rfl, rfl⟩,
      State.sameBlock_respond ..⟩
  · exact exec_pwr_repeated a w (State.inv_iff.1 inv).1
  · obtain ⟨t, run, -, -, pkt, plen, -⟩ := writersOfEachPiece .unpack s
    have samePkt : t.pkt = s.pkt := by simpa using pkt
    exact ⟨t, run, fun a => by rw [samePkt], by simpa using plen⟩
  · obtain ⟨t, run, -, msg, -⟩ := writersOfEachPiece .pack s
    exact ⟨t, run, by simpa using msg⟩

/-! ### Big-endian accesses -/

/-- Byte `i` of a 32-bit write, counted from the most significant (20_memory.md R44). -/
theorem Memory.read_be32Write_byte (m : Memory) (h : m.wf = true) (off : Nat) (v : Word32) {i : Nat} (lt : i < 4) :
    (m.be32Write off v).read (off + i) = v.extractLsb' (8 * (3 - i)) 8 := by
  interval_cases i <;> simp [Memory.read_be32Write m h]

theorem Memory.read_be32Write_outside (m : Memory) (h : m.wf = true) (off : Nat) (v : Word32) {x : Nat}
    (outside : x < off ∨ off + 4 ≤ x) : (m.be32Write off v).read x = m.read x := by
  rw [Memory.read_be32Write m h, if_neg, if_neg, if_neg, if_neg] <;> omega

theorem Memory.be32Read_be32Write (m : Memory) (h : m.wf = true) (off : Nat) (v : Word32) :
    (m.be32Write off v).be32Read off = v := by
  simpa [Memory.be32Read, Memory.read_be32Write m h] using word32_of_bytes v

/-- Byte `i` of a 64-bit write, counted from the most significant (20_memory.md R46). -/
theorem Memory.read_be64Write_byte (m : Memory) (h : m.wf = true) (off : Nat) (v : Word64) {i : Nat} (lt : i < 8) :
    (m.be64Write off v).read (off + i) = v.extractLsb' (8 * (7 - i)) 8 := by
  interval_cases i <;> simp [Memory.read_be64Write m h]

theorem Memory.read_be64Write_outside (m : Memory) (h : m.wf = true) (off : Nat) (v : Word64) {x : Nat}
    (outside : x < off ∨ off + 8 ≤ x) : (m.be64Write off v).read x = m.read x := by
  rw [Memory.read_be64Write m h, if_neg, if_neg, if_neg, if_neg, if_neg, if_neg, if_neg, if_neg] <;> omega

theorem Memory.be64Read_be64Write (m : Memory) (h : m.wf = true) (off : Nat) (v : Word64) :
    (m.be64Write off v).be64Read off = v := by
  simpa [Memory.be64Read, Memory.read_be64Write m h] using word64_of_bytes v

/-- A 64-bit read is the two 32-bit reads in order (20_memory.md R46). -/
theorem Memory.be64Read_eq_append (m : Memory) (off : Nat) :
    m.be64Read off = m.be32Read off ++ m.be32Read (off + 4) := by
  simp only [Memory.be64Read, Memory.be32Read, Nat.add_assoc]
  iterate 3 rw [BitVec.append_assoc']
  rfl

/-- A 32-bit read depends on nothing that a 32-bit write to the next word changes. -/
theorem Memory.be32Read_be32Write_next (m : Memory) (h : m.wf = true) (off : Nat) (v : Word32) :
    (m.be32Write (off + 4) v).be32Read off = m.be32Read off := by
  simp only [Memory.be32Read]
  iterate 4 rw [Memory.read_be32Write_outside m h (off + 4) v (by omega)]

/-- The number a byte of a word is. -/
theorem toNat_byte {n : Nat} (v : BitVec n) (k : Nat) : (v.extractLsb' k 8).toNat = v.toNat / 2 ^ k % 256 := by
  rw [BitVec.extractLsb'_toNat, Nat.shiftRight_eq_div_pow]

/-- Settles O20, byte by byte; the 64-bit read of two 32-bit words is the read of each. -/
theorem bigEndianAccess : Obligations.BigEndianAccess := by
  refine fun m off h => ⟨fun v => ⟨fun i lt => ?_, fun x => m.read_be32Write_outside h off v, m.be32Read_be32Write h off v⟩,
    fun v => ⟨fun i lt => ?_, fun x => m.read_be64Write_outside h off v, m.be64Read_be64Write h off v⟩, fun v v' => ?_⟩
  · rw [m.read_be32Write_byte h off v lt, toNat_byte]
  · rw [m.read_be64Write_byte h off v lt, toNat_byte]
  · have hv := m.wf_be32Write h off v
    rw [Memory.be64Read_eq_append, Memory.be32Read_be32Write_next _ hv, m.be32Read_be32Write h,
      Memory.be32Read_be32Write _ hv]

end Sys2Proof.Machine
end

section
/-! PROOFS. The decoder (spec 30_encoding.md R70 to R74): the words of a command decode to it, every word that R74 does not call
illegal is the word of a command, and the others decode to none. -/

namespace Sys2Proof

/-- The command with another operand, where it reads one (30_encoding.md R71). -/
def Instr.withOperand : Instr → Word64 → Instr
  | .mset f _, w => .mset f w
  | .tontp _, w => .tontp w
  | .frntp _, w => .frntp w
  | .twr a _, w => .twr a w
  | .tsetlen _, w => .tsetlen w
  | .pwr a _, w => .pwr a w
  | .psetlen _, w => .psetlen w
  | i, _ => i

@[simp] theorem Instr.withOperand_operand (i : Instr) : i.withOperand i.operand = i := by
  cases i <;> rfl

/-- A command either holds the operand it is given or reads none. -/
theorem Instr.operand_eq_or_reads_none {i : Instr} {w : Word64} (holds : i.withOperand w = i) :
    i.operand = w ∨ ∀ w', i.withOperand w' = i := by
  cases i with
  | mset f v => exact .inl (Instr.mset.inj holds).2.symm
  | tontp v => exact .inl (Instr.tontp.inj holds).symm
  | frntp v => exact .inl (Instr.frntp.inj holds).symm
  | twr a v => exact .inl (Instr.twr.inj holds).2.symm
  | tsetlen v => exact .inl (Instr.tsetlen.inj holds).symm
  | pwr a v => exact .inl (Instr.pwr.inj holds).2.symm
  | psetlen v => exact .inl (Instr.psetlen.inj holds).symm
  | _ => exact .inr fun _ => rfl

/-- The command word and operand stand for the well-formed command: its opcode, its argument, and its operand where it reads
one. -/
structure Command.StandsFor (c : Command) (i : Instr) : Prop where
  wellFormed : i.wellFormed = true
  op         : c.op = i.opcode
  arg        : c.arg = i.argument
  operand    : i.withOperand c.wdata = i

namespace Machine

/-! ### The two bytes of a command word -/

/-- A command word is its two bytes, `OP` in the more significant place (30_encoding.md R70). -/
theorem op_append_arg (c : Command) : c.op ++ c.arg = c.cmd := by
  rw [Command.op, Command.arg]
  exact (BitVec.extractLsb'_append_extractLsb'_eq_extractLsb' (by decide)).trans BitVec.extractLsb'_eq_self

theorem toNat_op (c : Command) : c.op.toNat = c.cmd.toNat / 256 := by
  rw [Command.op, toNat_byte]
  omega

theorem toNat_arg (c : Command) : c.arg.toNat = c.cmd.toNat % 256 := by
  rw [Command.arg, toNat_byte]
  omega

theorem eq_ofNat_of_toNat {b : Byte} {n : Nat} (h : b.toNat = n) : b = BitVec.ofNat 8 n := by
  rw [← h, BitVec.ofNat_toNat, BitVec.setWidth_eq]

theorem encode_standsFor {i : Instr} (wf : i.wellFormed = true) : (encode i).StandsFor i :=
  ⟨wf, op_encode i, arg_encode i, i.withOperand_operand⟩

/-- The word of a command is the word that stands for it. -/
theorem cmd_encode_of_standsFor {c : Command} {i : Instr} (h : c.StandsFor i) : (encode i).cmd = c.cmd := by
  rw [← op_append_arg c, h.op, h.arg, encode]

/-! ### Legal words -/

theorem decode_of_standsFor {c : Command} {i : Instr} (h : c.StandsFor i) : decode c = .instr i := by
  obtain ⟨wf, op, arg, holds⟩ := h
  cases i with
  | mset f w =>
    rw [decode_mset op, arg, Instr.argument, withField_selector]
    exact congrArg _ holds
  | mget f => rw [decode_mget op, arg, Instr.argument, withField_selector]
  | _ =>
    simp_all [decode, Instr.opcode, Instr.argument, Instr.wellFormed, Instr.withOperand, withoutArg, withAddress]

/-- Decoding the encoding of a well-formed command gives it back. -/
theorem decode_encode {i : Instr} (wf : i.wellFormed = true) : decode (encode i) = .instr i :=
  decode_of_standsFor (encode_standsFor wf)

/-- Every argument byte up to 0x0C selects a register (10_state.md R21). -/
theorem exists_selector {arg : Byte} (h : arg.toNat ≤ 0x0C) : ∃ f : MsgReg, arg = f.selector := by
  have eq := eq_ofNat_of_toNat (b := arg) rfl
  generalize arg.toNat = n at h eq
  subst eq
  interval_cases n
  exacts [⟨.li, rfl⟩, ⟨.vn, rfl⟩, ⟨.mode, rfl⟩, ⟨.stratum, rfl⟩, ⟨.poll, rfl⟩, ⟨.prec, rfl⟩, ⟨.rdelay, rfl⟩, ⟨.rdisp, rfl⟩,
    ⟨.refid, rfl⟩, ⟨.refts, rfl⟩, ⟨.orgts, rfl⟩, ⟨.rects, rfl⟩, ⟨.xmtts, rfl⟩]

/-- A word that no clause of 30_encoding.md R74 calls illegal stands for a command, by the row of R73 that has its opcode. -/
theorem exists_standsFor {c : Command} (legal : ¬ illegalWord c.op.toNat c.arg.toNat) : ∃ i, c.StandsFor i := by
  simp only [illegalWord, not_or, not_and, not_not, not_lt] at legal
  obtain ⟨assigned, register, text, packet, bare⟩ := legal
  simp only [List.mem_cons, List.not_mem_nil, or_false] at assigned
  rcases assigned with op | op | op | op | op | op | op | op | op | op | op | op | op | op | op | op | op
  · exact ⟨.mclr, rfl, eq_ofNat_of_toNat op, eq_ofNat_of_toNat (bare (by simp [op])), rfl⟩
  · obtain ⟨f, arg⟩ := exists_selector (register (by simp [op]))
    exact ⟨.mset f c.wdata, rfl, eq_ofNat_of_toNat op, arg, rfl⟩
  · obtain ⟨f, arg⟩ := exists_selector (register (by simp [op]))
    exact ⟨.mget f, rfl, eq_ofNat_of_toNat op, arg, rfl⟩
  · exact ⟨.tontp c.wdata, rfl, eq_ofNat_of_toNat op, eq_ofNat_of_toNat (bare (by simp [op])), rfl⟩
  · exact ⟨.frntp c.wdata, rfl, eq_ofNat_of_toNat op, eq_ofNat_of_toNat (bare (by simp [op])), rfl⟩
  · exact ⟨.twr c.arg c.wdata, decide_eq_true (text (by simp [op])), eq_ofNat_of_toNat op, rfl, rfl⟩
  · exact ⟨.trd c.arg, decide_eq_true (text (by simp [op])), eq_ofNat_of_toNat op, rfl, rfl⟩
  · exact ⟨.tsetlen c.wdata, rfl, eq_ofNat_of_toNat op, eq_ofNat_of_toNat (bare (by simp [op])), rfl⟩
  · exact ⟨.ridstr, rfl, eq_ofNat_of_toNat op, eq_ofNat_of_toNat (bare (by simp [op])), rfl⟩
  · exact ⟨.ridset, rfl, eq_ofNat_of_toNat op, eq_ofNat_of_toNat (bare (by simp [op])), rfl⟩
  · exact ⟨.pwr c.arg c.wdata, rfl, eq_ofNat_of_toNat op, rfl, rfl⟩
  · exact ⟨.prd c.arg, decide_eq_true (packet op), eq_ofNat_of_toNat op, rfl, rfl⟩
  · exact ⟨.psetlen c.wdata, rfl, eq_ofNat_of_toNat op, eq_ofNat_of_toNat (bare (by simp [op])), rfl⟩
  · exact ⟨.pack, rfl, eq_ofNat_of_toNat op, eq_ofNat_of_toNat (bare (by simp [op])), rfl⟩
  · exact ⟨.unpack, rfl, eq_ofNat_of_toNat op, eq_ofNat_of_toNat (bare (by simp [op])), rfl⟩
  · exact ⟨.srd, rfl, eq_ofNat_of_toNat op, eq_ofNat_of_toNat (bare (by simp [op])), rfl⟩
  · exact ⟨.sclr, rfl, eq_ofNat_of_toNat op, eq_ofNat_of_toNat (bare (by simp [op])), rfl⟩

/-! ### Illegal words -/

theorem withoutArg_of_ne {arg : Byte} (h : arg ≠ 0x00#8) (i : Instr) : withoutArg arg i = .illegal .argumentNotZero := by
  rw [withoutArg, if_neg h]

theorem withAddress_of_gt {arg : Byte} {greatest : Nat} (h : greatest < arg.toNat) (why : IllegalWord) (i : Instr) :
    withAddress arg greatest why i = .illegal why := by
  rw [withAddress, if_neg (by omega)]

theorem withField_of_gt {arg : Byte} (h : 0x0C < arg.toNat) (make : MsgReg → Instr) :
    withField arg make = .illegal .noSuchRegister := by
  rw [withField, ofSelector_of_gt h]

/-- Each clause of 30_encoding.md R74 makes the decoder reject the word. -/
theorem decode_of_illegalWord {c : Command} (h : illegalWord c.op.toNat c.arg.toNat) :
    ∃ why, decode c = .illegal why := by
  rcases h with unassigned | ⟨op, arg⟩ | ⟨op, arg⟩ | ⟨op, arg⟩ | ⟨op, arg⟩
  · refine ⟨.unassignedOpcode, ?_⟩
    simp_all [decode, BitVec.toNat_eq]
  · refine ⟨.noSuchRegister, ?_⟩
    simp only [List.mem_cons, List.not_mem_nil, or_false] at op
    rcases op with op | op <;> simp [decode, eq_ofNat_of_toNat op, withField_of_gt arg]
  · refine ⟨.noSuchTextByte, ?_⟩
    simp only [List.mem_cons, List.not_mem_nil, or_false] at op
    rcases op with op | op <;> simp [decode, eq_ofNat_of_toNat op, withAddress_of_gt arg]
  · exact ⟨.noSuchPacketByte, by simp [decode, eq_ofNat_of_toNat op, withAddress_of_gt arg]⟩
  · refine ⟨.argumentNotZero, ?_⟩
    have notZero : c.arg ≠ 0x00#8 := fun eq => arg (congrArg BitVec.toNat eq)
    simp only [List.mem_cons, List.not_mem_nil, or_false] at op
    rcases op with op | op | op | op | op | op | op | op | op | op | op <;>
      simp [decode, eq_ofNat_of_toNat op, withoutArg_of_ne notZero]

/-! ### Both -/

theorem decode_eq_instr {c : Command} {i : Instr} : decode c = .instr i ↔ c.StandsFor i := by
  refine ⟨fun h => ?_, decode_of_standsFor⟩
  have legal : ¬ illegalWord c.op.toNat c.arg.toNat := fun illegal => by
    obtain ⟨why, rejected⟩ := decode_of_illegalWord illegal
    cases h.symm.trans rejected
  obtain ⟨j, stands⟩ := exists_standsFor legal
  obtain rfl : i = j := Decoded.instr.inj (h.symm.trans (decode_of_standsFor stands))
  exact stands

/-- The decoder rejects exactly the words of 30_encoding.md R74. -/
theorem illegalWord_iff_decode {c : Command} : illegalWord c.op.toNat c.arg.toNat ↔ ∃ why, decode c = .illegal why := by
  refine ⟨decode_of_illegalWord, fun ⟨why, rejected⟩ => ?_⟩
  by_contra legal
  obtain ⟨i, stands⟩ := exists_standsFor legal
  cases rejected.symm.trans (decode_of_standsFor stands)

/-- Settles O3: the word stands for the command, and a command that does not hold the word's operand reads none. -/
theorem encodeOfDecode : Obligations.EncodeOfDecode := by
  intro c i decoded
  have stands := decode_eq_instr.1 decoded
  have sameCmd := cmd_encode_of_standsFor stands
  obtain ⟨wf, op, arg, holds⟩ := stands
  refine ⟨wf, sameCmd, (Instr.operand_eq_or_reads_none holds).imp_right fun readsNone w => ?_⟩
  exact decode_of_standsFor ⟨wf, op, arg, readsNone w⟩

/-- Settles O1: each word has its command's opcode and argument. -/
theorem sampleWordsDecode : Obligations.SampleWordsDecode := by
  refine ⟨fun w => ?_, fun w => ?_, fun w => ?_, fun w => ?_, fun w => ?_, fun w => ?_, fun w => ?_, fun w => ?_⟩ <;>
    exact decode_of_standsFor
      ⟨rfl, by simp [Command.op, Instr.opcode], by simp [Command.arg, Instr.argument, MsgReg.selector], rfl⟩

/-! ### How many words are legal -/

/-- How many argument bytes are legal after an opcode (30_encoding.md R73). -/
def legalArgs (op : Nat) : Nat :=
  if op ∈ [0x01, 0x10, 0x11, 0x22, 0x23, 0x24, 0x32, 0x33, 0x34, 0x40, 0x41] then 1
  else if op ∈ [0x02, 0x03] then 13
  else if op ∈ [0x20, 0x21] then 16
  else if op = 0x30 then 256
  else if op = 0x31 then 48
  else 0

/-- The legal argument bytes of an opcode are the least ones. -/
theorem illegalWord_iff_legalArgs {op arg : Nat} (byte : arg < 256) : illegalWord op arg ↔ legalArgs op ≤ arg := by
  unfold legalArgs illegalWord
  split_ifs with bare register text pwr prd
  · simp only [List.mem_cons, List.not_mem_nil, or_false] at bare
    rcases bare with rfl | rfl | rfl | rfl | rfl | rfl | rfl | rfl | rfl | rfl | rfl <;> simp <;> omega
  · simp only [List.mem_cons, List.not_mem_nil, or_false] at register
    rcases register with rfl | rfl <;> simp <;> omega
  · simp only [List.mem_cons, List.not_mem_nil, or_false] at text
    rcases text with rfl | rfl <;> simp <;> omega
  · subst pwr
    simp
    omega
  · subst prd
    simp
    omega
  · simp_all

theorem decodeTableWord_isSome_iff {nbits w : Nat} : (decodeTableWord nbits w).isSome = true ↔
    ¬ illegalWord (tableCommand nbits w).op.toNat (tableCommand nbits w).arg.toNat := by
  rw [illegalWord_iff_decode, decodeTableWord]
  cases decode (tableCommand nbits w) <;> simp

theorem decodeTableWord_isSome {op arg : Nat} (hop : op < 256) (harg : arg < 256) :
    (decodeTableWord 16 (op * 256 + arg)).isSome = decide (arg < legalArgs op) := by
  have cmd : (tableCommand 16 (op * 256 + arg)).cmd.toNat = op * 256 + arg := by
    rw [tableCommand, BitVec.toNat_ofNat]
    omega
  have opByte : (op * 256 + arg) / 256 = op := by omega
  have argByte : (op * 256 + arg) % 256 = arg := by omega
  rw [Bool.eq_iff_iff, decodeTableWord_isSome_iff, toNat_op, toNat_arg, cmd, opByte, argByte,
    illegalWord_iff_legalArgs harg, not_le, decide_eq_true_iff]

theorem countP_range_lt (k n : Nat) : (List.range n).countP (fun a => decide (a < k)) = min n k := by
  induction n with
  | zero => simp
  | succ n ih =>
    rw [List.range_succ, List.countP_append, ih, List.countP_singleton]
    split_ifs with h <;> simp at h <;> omega

theorem legalArgs_le (op : Nat) : legalArgs op ≤ 256 := by
  unfold legalArgs
  split_ifs <;> omega

/-- Of the 65536 command words 373 are legal: the rows of 30_encoding.md R73, summed. -/
theorem count_legal_words :
    ((List.range 256).map fun op => (List.range 256).countP fun arg => (decodeTableWord 16 (op * 256 + arg)).isSome).sum =
      373 := by
  have row : ∀ op ∈ List.range 256,
      ((List.range 256).countP fun arg => (decodeTableWord 16 (op * 256 + arg)).isSome) = legalArgs op := by
    intro op mem
    have alike : ∀ arg ∈ List.range 256,
        (decodeTableWord 16 (op * 256 + arg)).isSome = true ↔ decide (arg < legalArgs op) = true :=
      fun arg mem' => by rw [decodeTableWord_isSome (List.mem_range.1 mem) (List.mem_range.1 mem')]
    rw [List.countP_congr alike, countP_range_lt, min_eq_right (legalArgs_le op)]
  rw [List.map_congr_left row]
  decide +kernel

/-! ### What an illegal word answers -/

/-- A well-formed command fails only as `UNPACK` of a short packet does (60_exceptions.md R200, R201). -/
theorem exec_of_wellFormed {i : Instr} (wf : i.wellFormed = true) (s : State) : ∃ (u : State) (d : Word64),
    exec i s = .next (u.respond (if i = .unpack ∧ s.plen.toNat < 48 then .invalidPacket else .ok) d) ∧
      u.responses = s.responses := by
  cases i with
  | twr a w => exact ⟨_, _, execTwr_legal (of_decide_eq_true wf) w s, rfl⟩
  | trd a => exact ⟨_, _, execTrd_legal (of_decide_eq_true wf) s, rfl⟩
  | prd a => exact ⟨_, _, execPrd_legal (of_decide_eq_true wf) s, rfl⟩
  | pwr a w =>
    rcases Nat.lt_or_ge 47 a.toNat with h | h
    · exact ⟨_, _, execPwr_dropped h w s, rfl⟩
    · exact ⟨_, _, execPwr_stored h w s, rfl⟩
  | unpack =>
    rcases Nat.lt_or_ge s.plen.toNat 48 with h | h
    · exact ⟨s.recordInvalidPacket, _, by rw [if_pos ⟨rfl, h⟩]; exact execUnpack_short h, rfl⟩
    · exact ⟨s.setMsg (unpackFields s.pkt), _, by rw [if_neg (by omega)]; exact execUnpack_long h, rfl⟩
  | mclr => exact ⟨_, _, execMclr_next s, rfl⟩
  | mset f w => exact ⟨_, _, execMset_next f w s, rfl⟩
  | mget f => exact ⟨_, _, execMget_next f s, rfl⟩
  | tontp w => exact ⟨_, _, execTontp_next w s, rfl⟩
  | frntp w => exact ⟨_, _, execFrntp_next w s, rfl⟩
  | tsetlen w => exact ⟨_, _, execTsetlen_next w s, rfl⟩
  | ridstr => exact ⟨_, _, execRidstr_next s, rfl⟩
  | ridset => exact ⟨_, _, execRidset_next s, rfl⟩
  | psetlen w => exact ⟨_, _, execPsetlen_next w s, rfl⟩
  | pack => exact ⟨_, _, execPack_next s, by simp⟩
  | srd => exact ⟨_, _, execSrd_next s, rfl⟩
  | sclr => exact ⟨_, _, execSclr_next s, rfl⟩

/-- Settles O4: a word that stands for a command never answers IllegalCommand, a word that R74 rejects always does; the legal
words are counted opcode by opcode. -/
theorem illegalWordsExactly : Obligations.IllegalWordsExactly := by
  refine ⟨fun s c rest events => ?_, count_legal_words⟩
  rw [step_of_command events, illegalWord_iff_decode]
  match decoded : decode c with
  | .instr i =>
    obtain ⟨u, d, run, received⟩ := exec_of_wellFormed (decode_eq_instr.1 decoded).wellFormed { s with hostEvents := rest }
    refine ⟨_, _, run, by rw [State.respond_responses, received], ?_⟩
    split_ifs <;> simp
  | .illegal why =>
    exact ⟨_, { resp := .illegalCommand, rdata := 0#64 }, rfl, by simp, by simp⟩

end Machine

end Sys2Proof
end

section
/-! PROOFS. Programs of the host (spec 30_encoding.md R78): what a sequence of commands that all succeed leaves, and the two
expansions that fill a buffer, `PLOAD` and `TLOAD`. -/

namespace Sys2Proof.Machine

/-! ### Runs -/

theorem run_add_of_next {m : Nat} {s t : State} (h : core.run m s = .next t) (n : Nat) :
    core.run (m + n) s = core.run n t := by
  induction m generalizing s with
  | zero =>
    obtain rfl := Host.Outcome.next.inj h
    rw [Nat.zero_add]
  | succ m ih =>
    rw [Nat.add_right_comm]
    match first : core.step s with
    | .next u =>
      simp only [Host.Core.run, first] at h ⊢
      exact ih h
    | .fault r => simp [Host.Core.run, first] at h
    | .refused r => simp [Host.Core.run, first] at h

/-- The block with other lists on the host's side of its port. -/
def State.withPort (s : State) (events : List HostEvent) (received : List Response) : State :=
  { s with hostEvents := events, responses := received }

/-- The commands, run one after another on the block of `s`, each answer OK with data 0 and leave the block of `t`, whatever
else the host sends and has received. -/
def State.Loads (s : State) (is : List Instr) (t : State) : Prop :=
  ∀ rest received, core.run is.length (s.withPort (programEvents is ++ rest) received) =
    .next (t.withPort rest (received ++ List.replicate is.length { resp := .ok, rdata := 0#64 }))

theorem State.Loads.nil (s : State) : s.Loads [] s := by
  intro rest received
  simp [Host.Core.run, programEvents]

theorem State.Loads.append {s t u : State} {is js : List Instr} (first : s.Loads is t) (second : t.Loads js u) :
    s.Loads (is ++ js) u := by
  intro rest received
  have events : programEvents (is ++ js) ++ rest = programEvents is ++ (programEvents js ++ rest) := by
    simp [programEvents]
  rw [List.length_append, events, run_add_of_next (first ..), second, List.replicate_add, List.append_assoc]

/-- One well-formed command that answers OK with data 0. -/
theorem State.Loads.single {s t : State} {i : Instr} (wf : i.wellFormed = true)
    (run : ∀ rest received, exec i (s.withPort rest received) = .next ((t.withPort rest received).respond .ok 0#64)) :
    s.Loads [i] t := by
  intro rest received
  have events : (s.withPort (programEvents [i] ++ rest) received).hostEvents = .command (encode i) :: rest := rfl
  have stepped : core.step (s.withPort (programEvents [i] ++ rest) received) =
      .next ((t.withPort rest received).respond .ok 0#64) := by
    refine (step_of_command events).trans ?_
    rw [decode_encode wf]
    exact run rest received
  simp only [List.length_singleton, Host.Core.run, stepped]
  rfl

theorem State.Loads.cons {s t u : State} {i : Instr} {is : List Instr} (first : s.Loads [i] t) (others : t.Loads is u) :
    s.Loads (i :: is) u :=
  first.append others

theorem toNat_address {a : Nat} (byte : a < 256) : (BitVec.ofNat 8 a).toNat = a := by
  rw [BitVec.toNat_ofNat, Nat.mod_eq_of_lt (by omega)]

/-- The text a block holds when `TLEN` says how many bytes it is (10_state.md R30). -/
theorem State.text_of_tlen {s : State} {n : Nat} (h : s.tlen.toNat = n) : s.text = s.txt.readBytes 0 n := by
  rw [State.text, h]

/-! ### `PLOAD` -/

theorem loads_psetlen (s : State) (w : Word64) : s.Loads [.psetlen w] (s.setPlen (saturatedPacketLength w)) :=
  .single rfl fun _ _ => execPsetlen_next w _

theorem loads_pwr_stored (s : State) {a : Nat} (h : a < 48) (b : Byte) :
    s.Loads [.pwr (BitVec.ofNat 8 a) (zeroExtendByte b)] (s.setPkt (s.pkt.write a b)) := by
  have address := toNat_address (a := a) (by omega)
  refine .single rfl fun rest received => (execPwr_stored (by omega) _ _).trans ?_
  rw [address, byteOperand_zeroExtendByte]
  rfl

theorem loads_pwr_dropped (s : State) {a : Nat} (h : 48 ≤ a) (byte : a < 256) (w : Word64) :
    s.Loads [.pwr (BitVec.ofNat 8 a) w] s := by
  have address := toNat_address (a := a) (by omega)
  exact .single rfl fun rest received => execPwr_dropped (by omega) _ _

/-- Bytes written from an address on fill the packet up to its end; what lies beyond is dropped (43_packet.md R165). -/
theorem loads_pwrFrom (s : State) (a : Nat) (bs : List Byte) (fits : a + bs.length ≤ 256) :
    s.Loads (pwrFrom a bs) (s.setPkt (s.pkt.writeBytes a (bs.take (48 - a)))) := by
  induction bs generalizing s a with
  | nil =>
    rw [List.take_nil]
    exact .nil s
  | cons b bs ih =>
    rw [List.length_cons] at fits
    rcases Nat.lt_or_ge a 48 with h | h
    · have room : 48 - a = 48 - (a + 1) + 1 := by omega
      rw [room, List.take_succ_cons]
      exact .cons (loads_pwr_stored s h b) (ih _ _ (by omega))
    · have others := ih s (a + 1) (by omega)
      rw [show 48 - (a + 1) = 0 by omega] at others
      rw [show 48 - a = 0 by omega]
      exact .cons (loads_pwr_dropped s h (by omega) _) others

theorem getD_take (bs : List Byte) (n a : Nat) (d : Byte) :
    (bs.take n).getD a d = if h : a < bs.length ∧ a < n then bs[a]'h.1 else d := by
  split_ifs with h
  · have lt : a < (bs.take n).length := by
      rw [List.length_take]
      exact lt_min h.2 h.1
    rw [List.getD_eq_getElem _ _ lt, List.getElem_take]
  · refine List.getD_eq_default _ _ ?_
    rw [List.length_take]
    omega

/-- Settles O54: the bytes are written and then the length. -/
theorem ploadSuppliesBuffer : Obligations.PloadSuppliesBuffer := by
  intro bs s inv fits
  obtain ⟨pktWf, -⟩ := State.inv_iff.1 inv
  have loads := (loads_pwrFrom s 0 bs (by omega)).append (loads_psetlen _ (BitVec.ofNat 64 bs.length))
  refine ⟨_, _, if_pos fits, loads s.hostEvents s.responses, fun a => ?_, ?_, rfl, rfl, rfl, fun _ => rfl, rfl, rfl, rfl⟩
  · refine (Memory.read_writeBytes s.pkt pktWf 0 _ a).trans ?_
    rw [if_pos (Nat.zero_le a), Nat.sub_zero, Nat.sub_zero, getD_take]
  · refine (toNat_saturatedPacketLength _).trans ?_
    simp
    omega

/-! ### `TLOAD` -/

theorem loads_tsetlen (s : State) (w : Word64) : s.Loads [.tsetlen w] (s.setTlen (saturatedTextLength w)) :=
  .single rfl fun _ _ => execTsetlen_next w _

theorem loads_twr (s : State) {a : Nat} (h : a < 16) (b : Byte) :
    s.Loads [.twr (BitVec.ofNat 8 a) (zeroExtendByte b)] (s.setTxt (s.txt.write a b)) := by
  have address := toNat_address (a := a) (by omega)
  have legal : (BitVec.ofNat 8 a).toNat ≤ 15 := by omega
  refine .single (decide_eq_true legal) fun rest received => (execTwr_legal legal _ _).trans ?_
  rw [address, byteOperand_zeroExtendByte]
  rfl

theorem loads_twrFrom (s : State) (a : Nat) (bs : List Byte) (fits : a + bs.length ≤ 16) :
    s.Loads (twrFrom a bs) (s.setTxt (s.txt.writeBytes a bs)) := by
  induction bs generalizing s a with
  | nil => exact .nil s
  | cons b bs ih =>
    rw [List.length_cons] at fits
    exact .cons (loads_twr s (by omega) b) (ih _ _ (by omega))

/-- Bytes just written read back. -/
theorem Memory.readBytes_writeBytes (m : Memory) (h : m.wf = true) (off : Nat) (bs : List Byte) :
    (m.writeBytes off bs).readBytes off bs.length = bs := by
  refine List.ext_getElem (by simp) fun i lt lt' => ?_
  rw [← List.getD_eq_getElem _ 0#8 lt, Memory.getD_readBytes _ _ _ _ _ lt', Memory.read_writeBytes m h, if_pos (by omega),
    Nat.add_sub_cancel_left, List.getD_eq_getElem _ _ lt']

/-- Settles O55: the characters are written and then the length, so the text is what was written. -/
theorem tloadSuppliesText : Obligations.TloadSuppliesText := by
  intro bs s inv fits
  obtain ⟨-, -, txtWf, -⟩ := State.inv_iff.1 inv
  have loads := (loads_twrFrom s 0 bs (by omega)).append (loads_tsetlen _ (BitVec.ofNat 64 bs.length))
  have length : (saturatedTextLength (BitVec.ofNat 64 bs.length)).toNat = bs.length := by
    simp
    omega
  refine ⟨_, _, if_pos fits, loads s.hostEvents s.responses, ?_, fun a le => ?_, rfl, rfl, rfl, fun _ => rfl, rfl, rfl, rfl⟩
  · exact (State.text_of_tlen length).trans (Memory.readBytes_writeBytes s.txt txtWf 0 bs)
  · refine (Memory.read_writeBytes s.txt txtWf 0 bs a).trans ?_
    rw [if_pos (Nat.zero_le a), Nat.sub_zero, List.getD_eq_default _ _ le]

end Sys2Proof.Machine
end

section
/-! PROOFS. The quantisers of 16.16 fixed point (spec 40_field_codec.md R104) and the expansion `MSETQ` (30_encoding.md R78). -/

namespace Sys2Proof.Machine

/-! ### Rounding to the nearest word -/

theorem roundHalfUp_eq_round (x : Rat) : roundHalfUp x = round x :=
  (round_eq x).symm

/-- Rounding moves a number by at most half a unit (00_scope.md R11). -/
theorem abs_roundHalfUp_sub_le (x : Rat) : |roundHalfUp x - x| ≤ 1 / 2 := by
  rw [roundHalfUp_eq_round, abs_sub_comm]
  exact abs_sub_round x

/-- A whole number of units near a scaled number is, in seconds, as near to the number itself. -/
theorem abs_units_sub_le (x : Rat) :
    |(roundHalfUp (x * 2 ^ Config.fxFracBits) : Rat) / 2 ^ Config.fxFracBits - x| ≤ 1 / 131072 := by
  have near := abs_roundHalfUp_sub_le (x * 2 ^ Config.fxFracBits)
  rw [abs_le] at near ⊢
  obtain ⟨low, high⟩ := near
  rw [Config.fxFracBits] at *
  constructor <;> linarith

/-- The signed value of a word quantised from root delay's range is near the number (40_field_codec.md R112). -/
theorem fxValS_fxQuantS_near {x : Rat} (low : -32768 - 1 / 131072 ≤ x) (high : x < 32768 - 1 / 131072) :
    |fxValS (fxQuantS x) - x| ≤ 1 / 131072 := by
  have least : -2 ^ 31 ≤ roundHalfUp (x * 2 ^ Config.fxFracBits) := Int.le_floor.2 (by
    rw [Config.fxFracBits]; push_cast; linarith)
  have most : roundHalfUp (x * 2 ^ Config.fxFracBits) < 2 ^ 31 := Int.floor_lt.2 (by
    rw [Config.fxFracBits]; push_cast; linarith)
  rw [fxValS, fxQuantS, BitVec.toInt_ofInt_eq_self (by decide) least most]
  exact abs_units_sub_le x

/-- The unsigned value of a word quantised from root dispersion's range is near the number (40_field_codec.md R112). -/
theorem fxValU_fxQuantU_near {x : Rat} (low : 0 - 1 / 131072 ≤ x) (high : x < 65536 - 1 / 131072) :
    |fxValU (fxQuantU x) - x| ≤ 1 / 131072 := by
  have least : 0 ≤ roundHalfUp (x * 2 ^ Config.fxFracBits) := Int.le_floor.2 (by
    rw [Config.fxFracBits]; push_cast; linarith)
  have most : roundHalfUp (x * 2 ^ Config.fxFracBits) < 2 ^ 32 := Int.floor_lt.2 (by
    rw [Config.fxFracBits]; push_cast; linarith)
  have units : ((fxQuantU x).toNat : Int) = roundHalfUp (x * 2 ^ Config.fxFracBits) := by
    rw [fxQuantU, BitVec.toNat_ofInt]
    omega
  rw [fxValU, ← Int.cast_natCast, units]
  exact abs_units_sub_le x

/-! ### `MSETQ` -/

/-- Settles O56: `MSETQ` is the `MSET` of a quantised word, which its register holds whole. -/
theorem msetqQuantises : Obligations.MsetqQuantises := by
  refine ⟨fun x s low high => ?_, fun x s low high => ?_⟩
  · have stored : truncateTo .rdelay ((fxQuantS x).setWidth 64) = fxQuantS x := BitVec.setWidth_setWidth_of_le _ (by decide)
    refine ⟨_, _, rfl, execMset_next .rdelay _ s, ⟨rfl, rfl⟩, ?_, fun f ne => Message.get_set_other s.msg _ f _ ne⟩
    rw [stored]
    exact fxValS_fxQuantS_near low high
  · have stored : truncateTo .rdisp ((fxQuantU x).setWidth 64) = fxQuantU x := BitVec.setWidth_setWidth_of_le _ (by decide)
    refine ⟨_, _, rfl, execMset_next .rdisp _ s, ⟨rfl, rfl⟩, ?_, fun f ne => Message.get_set_other s.msg _ f _ ne⟩
    rw [stored]
    exact fxValU_fxQuantU_near low high

end Sys2Proof.Machine
end

section
/-! PROOFS. The field codec (spec 40_field_codec.md): `MCLR` and a register read straight after it is written, byte 0, and the
values, decoders and quantisers of 16.16 fixed point. -/

namespace Sys2Proof.Machine

/-! ### The numbers that concatenated words are -/

/-- The left part of a concatenation counts in units of the right part's modulus (00_scope.md R9). -/
theorem toNat_append_eq_add {m n : Nat} (x : BitVec m) (y : BitVec n) :
    (x ++ y).toNat = x.toNat * 2 ^ n + y.toNat := by
  rw [BitVec.toNat_append, ← Nat.shiftLeft_add_eq_or_of_lt y.isLt, Nat.shiftLeft_eq]

/-- The left part of a signed concatenation carries the sign. -/
theorem toInt_append_eq_add {m n : Nat} (nonempty : m ≠ 0) (x : BitVec m) (y : BitVec n) :
    (x ++ y).toInt = x.toInt * 2 ^ n + y.toNat := by
  rw [BitVec.toInt_append, if_neg (by simpa using nonempty), mul_comm]

/-! ### Registers -/

theorem decode_mclr {c : Command} (h : c.op = 0x01#8) : decode c = withoutArg c.arg .mclr := by
  simp [decode, h]

/-- Settles O21: `MCLR` replaces the message by the one whose registers are all 0. -/
theorem mclrZeroesRegisters : Obligations.MclrZeroesRegisters := by
  refine ⟨fun c op => ⟨fun zero => ?_, fun ne => ?_⟩, fun s => ?_⟩
  · rw [decode_mclr op, withoutArg, if_pos zero]
  · rw [decode_mclr op, withoutArg_of_ne ne]
  · refine ⟨_, execMclr_next s, ⟨rfl, rfl⟩, fun f => ?_, fun _ => rfl, fun _ => rfl, ⟨rfl, rfl⟩, ⟨rfl, rfl⟩⟩
    simp

theorem toInt_truncateTo (f : MsgReg) (w : Word64) : (truncateTo f w).toInt = Int.bmod w.toNat (2 ^ f.width) := by
  rw [truncateTo, BitVec.toInt_setWidth]

/-- Settles O24: `MGET` extends what the register holds, and `MSET` left the operand's low bits there. -/
theorem mgetAfterMset : Obligations.MgetAfterMset := by
  intro f w s
  have value := (s.msg.set f (truncateTo f w)).extended_value f
  rw [Message.get_set_same, toInt_truncateTo, toNat_truncateTo] at value
  exact ⟨_, _, _, execMset_next f w s, execMget_next f _, ⟨rfl, rfl⟩, value⟩

/-! ### Byte 0 -/

theorem toNat_packByte0 (li : BitVec 2) (vn mode : BitVec 3) :
    (packByte0 li vn mode).toNat = li.toNat * 64 + vn.toNat * 8 + mode.toNat := by
  rw [packByte0, toNat_append_eq_add, toNat_append_eq_add]
  omega

/-- The fields of byte 0 are the source's shifts and masks (40_field_codec.md R101). -/
theorem toNat_unpackByte0 (b : Byte) : (unpackByte0 b).1.toNat = b.toNat / 64 % 4 ∧
    (unpackByte0 b).2.1.toNat = b.toNat / 8 % 8 ∧ (unpackByte0 b).2.2.toNat = b.toNat % 8 := by
  simp [unpackByte0, BitVec.extractLsb'_toNat, Nat.shiftRight_eq_div_pow]

theorem unpackByte0_packByte0 (li : BitVec 2) (vn mode : BitVec 3) :
    unpackByte0 (packByte0 li vn mode) = (li, vn, mode) := by
  obtain ⟨high, middle, low⟩ := toNat_unpackByte0 (packByte0 li vn mode)
  rw [toNat_packByte0] at high middle low
  have sameLi : (unpackByte0 (packByte0 li vn mode)).1 = li := BitVec.eq_of_toNat_eq (by omega)
  have sameVn : (unpackByte0 (packByte0 li vn mode)).2.1 = vn := BitVec.eq_of_toNat_eq (by omega)
  have sameMode : (unpackByte0 (packByte0 li vn mode)).2.2 = mode := BitVec.eq_of_toNat_eq (by omega)
  exact Prod.ext sameLi (Prod.ext sameVn sameMode)

theorem packByte0_unpackByte0 (b : Byte) :
    packByte0 (unpackByte0 b).1 (unpackByte0 b).2.1 (unpackByte0 b).2.2 = b := by
  obtain ⟨high, middle, low⟩ := toNat_unpackByte0 b
  apply BitVec.eq_of_toNat_eq
  rw [toNat_packByte0]
  omega

/-- Settles O25, by the numbers the byte and its fields are. -/
theorem byteZeroFields : Obligations.ByteZeroFields := by
  refine ⟨fun li vn mode => ⟨toNat_packByte0 li vn mode, unpackByte0_packByte0 li vn mode⟩, fun b => ?_⟩
  obtain ⟨high, middle, low⟩ := toNat_unpackByte0 b
  exact ⟨high, middle, low, packByte0_unpackByte0 b⟩

/-! ### The values of a 16.16 word -/

theorem fxValS_eq_div (w : Word32) : fxValS w = w.toInt / 65536 := by
  norm_num [fxValS, Config.fxFracBits]

theorem fxValU_eq_div (w : Word32) : fxValU w = w.toNat / 65536 := by
  norm_num [fxValU, Config.fxFracBits]

/-- Bit 31 weighs -32768 in the one reading and 32768 in the other (40_field_codec.md R103). -/
theorem fxValU_eq_fxValS (w : Word32) : fxValU w = if w.getLsbD 31 then fxValS w + 65536 else fxValS w := by
  have reading := w.toInt_eq_msb_cond
  rw [BitVec.msb_eq_getLsbD_last] at reading
  rw [fxValS_eq_div, fxValU_eq_div, reading]
  split_ifs
  · push_cast
    ring
  · rfl

/-- Settles O26: the values are quotients by 65536, and bit 31 tells the two integers apart. -/
theorem fixedPointValues : Obligations.FixedPointValues := by
  refine fun w => ⟨?_, ?_, fxValU_eq_fxValS w⟩
  · rw [fxValS_eq_div, div_mul_cancel₀ _ (by norm_num)]
  · rw [fxValU_eq_div, div_mul_cancel₀ _ (by norm_num)]

/-! ### The decoders -/

theorem toInt_fxDecodeS (b0 b1 b2 b3 : Byte) :
    (fxDecodeS b0 b1 b2 b3).toInt = s8 b0 * 2 ^ 24 + u8 b1 * 2 ^ 16 + u8 b2 * 2 ^ 8 + u8 b3 := by
  rw [fxDecodeS]
  iterate 3 rw [toInt_append_eq_add (by decide)]
  simp only [s8, u8]
  ring

theorem toNat_fxDecodeU (b0 b1 b2 b3 : Byte) :
    (fxDecodeU b0 b1 b2 b3).toNat = u8 b0 * 2 ^ 24 + u8 b1 * 2 ^ 16 + u8 b2 * 2 ^ 8 + u8 b3 := by
  simp only [fxDecodeU, toNat_append_eq_add, u8]
  ring

/-- Settles O27: each byte of the word, divided by 65536, has the weight of R105 and R106. -/
theorem byteWeightedDecode : Obligations.ByteWeightedDecode := by
  refine fun b0 b1 b2 b3 => ⟨?_, ?_⟩
  · rw [fxValS_eq_div, toInt_fxDecodeS]
    push_cast
    ring
  · rw [fxValU_eq_div, toNat_fxDecodeU]
    push_cast
    ring

/-! ### The quantisers -/

theorem roundHalfUp_intCast (n : Int) : roundHalfUp (n : Rat) = n := by
  rw [roundHalfUp_eq_round, round_intCast]

theorem fxQuantS_fxValS (w : Word32) : fxQuantS (fxValS w) = w := by
  rw [fxQuantS, fxValS, div_mul_cancel₀ _ (by norm_num), roundHalfUp_intCast, BitVec.ofInt_toInt]

theorem fxQuantU_fxValU (w : Word32) : fxQuantU (fxValU w) = w := by
  rw [fxQuantU, fxValU, div_mul_cancel₀ _ (by norm_num), ← Int.cast_natCast, roundHalfUp_intCast, BitVec.ofInt_natCast,
    BitVec.ofNat_toNat, BitVec.setWidth_eq]

/-- The signed value of a whole number of units cut to 32 bits is the number's own, up to the 65536 seconds at which the word
wraps. -/
theorem fxValS_ofInt (n : Int) :
    fxValS (BitVec.ofInt 32 n) + Int.bdiv n (2 ^ 32) * 65536 = n / 2 ^ Config.fxFracBits := by
  have units : ((Int.bmod n (2 ^ 32) + 2 ^ 32 * Int.bdiv n (2 ^ 32) : Int) : Rat) = n :=
    congrArg _ (Int.bmod_add_bdiv n _)
  push_cast at units
  rw [fxValS, BitVec.toInt_ofInt, Config.fxFracBits]
  linarith

/-- The signed value of a quantised number is near the number, up to the 65536 seconds at which the word wraps. -/
theorem fxValS_fxQuantS_wraps (x : Rat) : ∃ k : Int, |fxValS (fxQuantS x) + k * 65536 - x| ≤ 1 / 131072 := by
  refine ⟨Int.bdiv (roundHalfUp (x * 2 ^ Config.fxFracBits)) (2 ^ 32), ?_⟩
  rw [fxQuantS, fxValS_ofInt]
  exact abs_units_sub_le x

/-- The unsigned value wraps as the signed one does: the two differ by 0 or by 65536 seconds. -/
theorem fxValU_fxQuantU_wraps (x : Rat) : ∃ k : Int, |fxValU (fxQuantU x) + k * 65536 - x| ≤ 1 / 131072 := by
  obtain ⟨k, near⟩ := fxValS_fxQuantS_wraps x
  have same : fxQuantU x = fxQuantS x := rfl
  rw [same, fxValU_eq_fxValS]
  split_ifs
  · refine ⟨k - 1, ?_⟩
    push_cast
    convert near using 2
    ring
  · exact ⟨k, near⟩

/-- Settles O28: rounding leaves a whole number of units alone, the words of the two ranges hold theirs exactly, and outside
them a word wraps. -/
theorem quantiserLaws : Obligations.QuantiserLaws :=
  ⟨fun w => ⟨fxQuantS_fxValS w, fxQuantU_fxValU w⟩, fun _ => fxValS_fxQuantS_near, fun _ => fxValU_fxQuantU_near,
    fxValS_fxQuantS_wraps, fxValU_fxQuantU_wraps⟩

end Sys2Proof.Machine
end

section
/-! PROOFS. The timestamp converter (spec 41_timestamp.md) and its commands `TONTP` and `FRNTP`: a timestamp is taken apart into
its seconds word and its fraction, and the laws of the two conversions are arithmetic on the numbers these are. -/

namespace Sys2Proof.Machine

/-! ### The two words of a timestamp -/

theorem eq_of_seconds_fraction {x y : Word64} (seconds : x.extractLsb' 32 32 = y.extractLsb' 32 32)
    (fraction : x.extractLsb' 0 32 = y.extractLsb' 0 32) : x = y := by
  have joined (z : Word64) : z.extractLsb' 32 32 ++ z.extractLsb' 0 32 = z :=
    BitVec.extractLsb'_append_extractLsb' (w := 32)
  rw [← joined x, ← joined y, seconds, fraction]

/-- Bit 63 of a timestamp is the most significant bit of its seconds word (41_timestamp.md R120). -/
theorem getLsbD_63_iff (ts : Word64) : ts.getLsbD 63 = true ↔ 2 ^ 31 ≤ (ts.extractLsb' 32 32).toNat := by
  have top : ts.msb = ts.getLsbD 63 := BitVec.msb_eq_getLsbD_last ts
  rw [← top, BitVec.msb_eq_true_iff_two_mul_ge, BitVec.extractLsb'_toNat, Nat.shiftRight_eq_div_pow]
  omega

theorem seconds_shift_or (s f : Word64) :
    ((s <<< 32) ||| f).extractLsb' 32 32 = s.extractLsb' 0 32 ||| f.extractLsb' 32 32 := by
  ext i lt
  simp [show 32 + i < 64 by omega, show i < 64 by omega]

theorem fraction_shift_or (s f : Word64) : ((s <<< 32) ||| f).extractLsb' 0 32 = f.extractLsb' 0 32 := by
  ext i lt
  simp [lt]

theorem extractLsb'_ofInt_low (n : Int) : (BitVec.ofInt 64 n).extractLsb' 0 32 = BitVec.ofInt 32 n := by
  apply BitVec.eq_of_toNat_eq
  simp only [BitVec.extractLsb'_toNat, BitVec.toNat_ofInt, Nat.shiftRight_zero]
  omega

theorem extractLsb'_ofInt_high (n : Int) : (BitVec.ofInt 64 n).extractLsb' 32 32 = BitVec.ofInt 32 (n / 2 ^ 32) := by
  apply BitVec.eq_of_toNat_eq
  simp only [BitVec.extractLsb'_toNat, BitVec.toNat_ofInt, Nat.shiftRight_eq_div_pow]
  omega

/-- Setting the era bit replaces the most significant bit of a seconds word by 1. -/
theorem toNat_or_eraBit (x : Word32) : (x ||| 0x80000000#32).toNat = x.toNat % 2 ^ 31 + 2 ^ 31 := by
  have joined : x.extractLsb' 31 1 ++ x.extractLsb' 0 31 = x := BitVec.extractLsb'_append_extractLsb' (w := 1)
  have absorbed (b : BitVec 1) : b ||| 1#1 = 1#1 := BitVec.or_allOnes
  have replaced : x ||| 0x80000000#32 = 1#1 ++ x.extractLsb' 0 31 :=
    calc x ||| 0x80000000#32
      _ = (x.extractLsb' 31 1 ++ x.extractLsb' 0 31) ||| (1#1 ++ 0#31) := by rw [joined]; rfl
      _ = 1#1 ++ x.extractLsb' 0 31 := by rw [BitVec.or_append, absorbed, BitVec.or_zero]
  rw [replaced, toNat_append_eq_add, BitVec.extractLsb'_toNat, Nat.shiftRight_zero, add_comm]
  rfl

/-! ### `ToNtpTime` -/

/-- Steps 1 and 2 of 41_timestamp.md R121: the milliseconds since the base of the era. -/
def eraOffset (t : Int) : Int := t - (if t < 2085978496000 then -2208988800000 else 2085978496000)

/-- `frac` of 41_timestamp.md R121 step 3: the part below a second, a signed count of 2^-32 seconds. -/
def fractionUnits (base : Int) : Int := Int.tdiv (Int.tmod base 1000 * 2 ^ 32) 1000

theorem inEra0_iff {t : Int} : inEra0 t = true ↔ t < 2085978496000 :=
  decide_eq_true_iff

theorem toNtpTime_eq (t : Int) : toNtpTime t =
    ((BitVec.ofInt 64 (Int.tdiv (eraOffset t) 1000) |||
      if t < 2085978496000 then 0x0000000080000000#64 else 0x0000000000000000#64) <<< 32) |||
    BitVec.ofInt 64 (fractionUnits (eraOffset t)) := by
  simp only [toNtpTime, inEra0_iff, era0EpochMs, era1EpochMs, eraOffset, fractionUnits]
  split_ifs <;> simp

/-- A negative fraction reaches into the seconds word (41_timestamp.md R124). -/
theorem seconds_toNtpTime (t : Int) : (toNtpTime t).extractLsb' 32 32 =
    (BitVec.ofInt 32 (Int.tdiv (eraOffset t) 1000) ||| if t < 2085978496000 then 0x80000000#32 else 0x00000000#32) |||
    BitVec.ofInt 32 (fractionUnits (eraOffset t) / 2 ^ 32) := by
  rw [toNtpTime_eq, seconds_shift_or, BitVec.extractLsb'_or, extractLsb'_ofInt_low, extractLsb'_ofInt_high]
  split_ifs <;> rfl

theorem fraction_toNtpTime (t : Int) :
    (toNtpTime t).extractLsb' 0 32 = BitVec.ofInt 32 (fractionUnits (eraOffset t)) := by
  rw [toNtpTime_eq, fraction_shift_or, extractLsb'_ofInt_low]

theorem fractionUnits_of_nonneg {base : Int} (h : 0 ≤ base) : fractionUnits base = base % 1000 * 2 ^ 32 / 1000 := by
  rw [fractionUnits, Int.tmod_eq_emod_of_nonneg h, Int.tdiv_eq_ediv_of_nonneg (by omega)]

theorem fractionUnits_neg (base : Int) : fractionUnits (-base) = -fractionUnits base := by
  rw [fractionUnits, fractionUnits, Int.neg_tmod, Int.neg_mul, Int.neg_tdiv]

/-- Settles O29: from 1900 on truncation is floor, and the fraction fits its 32 bits. -/
theorem toNtpTimeFrom1900 : Obligations.ToNtpTimeFrom1900 := by
  intro t from1900
  change _ = BitVec.ofInt 32 (eraOffset t / 1000) ||| _ ∧ _ = eraOffset t % 1000 * 2 ^ 32 / 1000
  have nonneg : 0 ≤ eraOffset t := by
    rw [eraOffset]
    omega
  rw [seconds_toNtpTime, fraction_toNtpTime, fractionUnits_of_nonneg nonneg, Int.tdiv_eq_ediv_of_nonneg nonneg]
  constructor
  · have within : eraOffset t % 1000 * 2 ^ 32 / 1000 / 2 ^ 32 = 0 := by omega
    rw [within]
    exact BitVec.or_zero
  · rw [BitVec.toNat_ofInt]
    omega

/-- Settles O30: before 1900 every part changes its sign, and a fraction below 0 sets all bits of the seconds word. -/
theorem toNtpTimeBefore1900 : Obligations.ToNtpTimeBefore1900 := by
  intro t before below
  have offset : eraOffset t = -below := by
    rw [eraOffset, if_pos (by omega)]
    omega
  have units : fractionUnits (eraOffset t) = -(below % 1000 * 2 ^ 32 / 1000) := by
    rw [offset, fractionUnits_neg, fractionUnits_of_nonneg (by omega)]
  have era0 : t < 2085978496000 := by omega
  rw [seconds_toNtpTime, fraction_toNtpTime, if_pos era0, units, offset, Int.neg_tdiv,
    Int.tdiv_eq_ediv_of_nonneg (by omega)]
  refine ⟨fun whole => ?_, fun part => ?_⟩
  · simp [whole]
  · have borrow : -(below % 1000 * 2 ^ 32 / 1000) / 2 ^ 32 = -1 := by omega
    rw [borrow, BitVec.toNat_ofInt]
    refine ⟨?_, by omega⟩
    exact BitVec.or_allOnes

theorem toNat_seconds_toNtpTime {t : Int} (from1900 : -2208988800000 ≤ t) :
    (((toNtpTime t).extractLsb' 32 32).toNat : Int) =
      if t < 2085978496000 then (t + 2208988800000) / 1000 % 2 ^ 31 + 2 ^ 31
      else (t - 2085978496000) / 1000 % 2 ^ 32 := by
  rw [(toNtpTimeFrom1900 t from1900).1]
  split_ifs
  · rw [toNat_or_eraBit, BitVec.toNat_ofInt]
    omega
  · rw [BitVec.or_zero, BitVec.toNat_ofInt]
    omega

theorem toNat_fraction_toNtpTime {t : Int} (from1900 : -2208988800000 ≤ t) :
    (((toNtpTime t).extractLsb' 0 32).toNat : Int) = t % 1000 * 2 ^ 32 / 1000 := by
  rw [(toNtpTimeFrom1900 t from1900).2]
  split_ifs <;> omega

/-- Settles O31: in era 0 the bit is set outright, and in era 1 up to `DOM_HI` the seconds are below 2^31. -/
theorem eraBitAtTheBoundary : Obligations.EraBitAtTheBoundary := by
  refine ⟨fun t below => ?_, by decide, by decide⟩
  rcases lt_or_ge t 2085978496000 with era0 | era1
  · simp [toNtpTime_eq, era0]
  · rw [getLsbD_63_iff]
    have value := toNat_seconds_toNtpTime (t := t) (by omega)
    rw [if_neg (by omega)] at value
    omega

/-! ### `FromNtpTime` -/

theorem fromNtpTime_eq (ts : Word64) : fromNtpTime ts =
    (if (ts.extractLsb' 32 32).toNat < 2 ^ 31 then 2085978496000 else -2208988800000) +
      (ts.extractLsb' 32 32).toNat * 1000 + fractionMillis (ts.extractLsb' 0 32).toNat := by
  simp only [fromNtpTime, getLsbD_63_iff, era0EpochMs, era1EpochMs]
  split_ifs <;> omega

theorem fractionMillis_le (frac : Word32) : fractionMillis frac.toNat ≤ 1000 := by
  rw [fractionMillis]
  omega

/-- The threshold of 41_timestamp.md R126: from 999.5 milliseconds on the fraction rounds to a whole second. -/
theorem fractionMillis_eq_1000_iff (frac : Word32) : fractionMillis frac.toNat = 1000 ↔ 0xFFDF3B65 ≤ frac.toNat := by
  rw [fractionMillis]
  omega

/-- Whole numbers of milliseconds survive the scaling to 2^-32 seconds (41_timestamp.md R126). -/
theorem fractionMillis_scaled {r : Nat} (_ : r < 1000) : fractionMillis (r * 2 ^ 32 / 1000) = r := by
  rw [fractionMillis]
  omega

/-- Even a carry out of the last fraction stays within the domain's ends (41_timestamp.md R125). -/
theorem fromNtpTime_bounds (ts : Word64) : -61505152000 ≤ fromNtpTime ts ∧ fromNtpTime ts ≤ 4233462144000 := by
  have value := fromNtpTime_eq ts
  have millis := fractionMillis_le (ts.extractLsb' 0 32)
  split_ifs at value <;> omega

theorem roundHalfUp_fraction (frac : Nat) : roundHalfUp ((1000 * frac : Rat) / 2 ^ 32) = fractionMillis frac := by
  have quotient : (1000 * frac : Rat) / 2 ^ 32 + 1 / 2 = ((1000 * frac + 2 ^ 31 : Nat) : Rat) / ((2 ^ 32 : Nat) : Rat) := by
    push_cast
    ring
  rw [roundHalfUp, quotient, Rat.floor_natCast_div_natCast, fractionMillis]
  rfl

/-- Settles O32: the model's integer rounding is the rule's, and the bounds are those of the seconds word and the fraction. -/
theorem fromNtpTimeValue : Obligations.FromNtpTimeValue := by
  intro ts sec frac
  rw [roundHalfUp_fraction]
  obtain ⟨low, high⟩ := fromNtpTime_bounds ts
  refine ⟨?_, low, high, Int.natCast_nonneg _, mod_cast fractionMillis_le _, mod_cast fractionMillis_eq_1000_iff _⟩
  rw [fromNtpTime, era0EpochMs, era1EpochMs]
  cases ts.getLsbD 63 <;> rfl

/-! ### The two together -/

/-- From 1900 on a whole number of milliseconds is carried exactly: the seconds word alone decides what comes back. -/
theorem fromNtpTime_toNtpTime {t : Int} (from1900 : -2208988800000 ≤ t) : fromNtpTime (toNtpTime t) =
    (if ((toNtpTime t).extractLsb' 32 32).toNat < 2 ^ 31 then 2085978496000 else -2208988800000) +
      ((toNtpTime t).extractLsb' 32 32).toNat * 1000 + t % 1000 := by
  have fraction := toNat_fraction_toNtpTime from1900
  have millis : (fractionMillis ((toNtpTime t).extractLsb' 0 32).toNat : Int) = t % 1000 := by
    rw [fractionMillis]
    omega
  rw [fromNtpTime_eq, millis]

/-- From `DOM_LO` on, the value of the domain that has the same residue modulo 2^32 seconds comes back. -/
theorem fromNtpTime_toNtpTime_of_domLo_le {t : Int} (low : -61505152000 ≤ t) :
    fromNtpTime (toNtpTime t) = (t + 61505152000) % 4294967296000 - 61505152000 := by
  have seconds := toNat_seconds_toNtpTime (t := t) (by omega)
  rw [fromNtpTime_toNtpTime (by omega)]
  split_ifs at seconds ⊢ <;> omega

/-- From 1900 to `DOM_LO` the era bit is set where the seconds have it clear. -/
theorem fromNtpTime_toNtpTime_of_lt_domLo {t : Int} (from1900 : -2208988800000 ≤ t) (high : t < -61505152000) :
    fromNtpTime (toNtpTime t) = t + 2147483648000 := by
  have seconds := toNat_seconds_toNtpTime from1900
  rw [if_pos (by omega)] at seconds
  rw [fromNtpTime_toNtpTime from1900, if_neg (by omega)]
  omega

/-- Settles O33, by the residue that comes back from `DOM_LO` on. -/
theorem millisecondsRoundTrip : Obligations.MillisecondsRoundTrip := by
  refine ⟨fun t low high => ?_, fun t => fromNtpTime_toNtpTime_of_lt_domLo, fun t low => ?_⟩
  · rw [fromNtpTime_toNtpTime_of_domLo_le low]
    omega
  · rw [fromNtpTime_toNtpTime_of_domLo_le (by omega)]
    omega

/-- A fraction rounded to a whole second carries into the seconds word, modulo 2^32 (41_timestamp.md R128). -/
theorem toNat_seconds_roundTrip (ts : Word64) : ((toNtpTime (fromNtpTime ts)).extractLsb' 32 32).toNat =
    ((ts.extractLsb' 32 32).toNat + fractionMillis (ts.extractLsb' 0 32).toNat / 1000) % 2 ^ 32 := by
  obtain ⟨low, -⟩ := fromNtpTime_bounds ts
  have seconds := toNat_seconds_toNtpTime (t := fromNtpTime ts) (by omega)
  have value := fromNtpTime_eq ts
  have millis : fractionMillis (ts.extractLsb' 0 32).toNat ≤ 1000 := fractionMillis_le _
  split_ifs at seconds value <;> omega

theorem toNat_fraction_roundTrip (ts : Word64) : ((toNtpTime (fromNtpTime ts)).extractLsb' 0 32).toNat =
    fractionMillis (ts.extractLsb' 0 32).toNat % 1000 * 2 ^ 32 / 1000 := by
  obtain ⟨low, -⟩ := fromNtpTime_bounds ts
  have fraction := toNat_fraction_toNtpTime (t := fromNtpTime ts) (by omega)
  have value := fromNtpTime_eq ts
  have residue : fromNtpTime ts % 1000 = (fractionMillis (ts.extractLsb' 0 32).toNat % 1000 : Nat) := by
    split_ifs at value <;> omega
  rw [residue] at fraction
  exact_mod_cast fraction

/-- Settles O34: the round trip keeps the seconds and scales `fm`, and scaling returns a fraction only if it is a scaled one. -/
theorem timestampRoundTrip : Obligations.TimestampRoundTrip := by
  intro ts frac fm back
  have seconds : (back.extractLsb' 32 32).toNat = ((ts.extractLsb' 32 32).toNat + fm / 1000) % 2 ^ 32 :=
    toNat_seconds_roundTrip ts
  have fraction : (back.extractLsb' 0 32).toNat = fm % 1000 * 2 ^ 32 / 1000 := toNat_fraction_roundTrip ts
  have kept (lt : fm < 1000) : back.extractLsb' 32 32 = ts.extractLsb' 32 32 := by
    apply BitVec.eq_of_toNat_eq
    rw [seconds, Nat.div_eq_of_lt lt]
    omega
  refine ⟨⟨fun same => ?_, fun ⟨r, lt, scaled⟩ => ?_⟩, fun lt => ⟨kept lt, ?_⟩, fun carry => ⟨?_, ?_⟩⟩
  · rw [same] at fraction
    exact ⟨fm % 1000, Nat.mod_lt fm (by decide), fraction⟩
  · have millis : fm = r := by
      change fractionMillis frac = r
      rw [scaled, fractionMillis_scaled lt]
    refine eq_of_seconds_fraction (kept (by omega)) (BitVec.eq_of_toNat_eq ?_)
    rw [fraction, millis, Nat.mod_eq_of_lt lt]
    exact scaled.symm
  · rw [fraction, Nat.mod_eq_of_lt lt]
  · apply BitVec.eq_of_toNat_eq
    rw [seconds, carry, BitVec.toNat_add]
    rfl
  · apply BitVec.eq_of_toNat_eq
    rw [fraction, carry]
    rfl

/-! ### `TONTP` and `FRNTP` -/

theorem decode_tontp {c : Command} (h : c.op = 0x10#8) : decode c = withoutArg c.arg (.tontp c.wdata) := by
  simp [decode, h]

theorem decode_frntp {c : Command} (h : c.op = 0x11#8) : decode c = withoutArg c.arg (.frntp c.wdata) := by
  simp [decode, h]

/-- Settles O35: both commands answer and do nothing else, and the milliseconds of a timestamp fit 64 bits. -/
theorem converterCommands : Obligations.ConverterCommands := by
  refine ⟨fun c op => ?_, fun c op => ?_, fun w s => ?_, fun w s => ?_⟩
  · exact decode_tontp op ▸ ⟨fun zero => if_pos zero, fun ne => withoutArg_of_ne ne _⟩
  · exact decode_frntp op ▸ ⟨fun zero => if_pos zero, fun ne => withoutArg_of_ne ne _⟩
  · exact ⟨_, _, execTontp_next w s, ⟨rfl, rfl⟩, s.sameBlock_respond .., rfl⟩
  · obtain ⟨low, high⟩ := fromNtpTime_bounds w
    exact ⟨_, _, execFrntp_next w s, ⟨rfl, rfl⟩, s.sameBlock_respond ..,
      BitVec.toInt_ofInt_eq_self (by decide) (by omega) (by omega)⟩

end Sys2Proof.Machine
end

section
/-! PROOFS. The reference identifier (spec 42_refid.md): trimming, fitting and numerals as operations on byte strings, the two
interpreters `RefIdToText` and `RefIdFromText`, and the commands of the text buffer. -/

namespace Sys2Proof.Machine

/-! ### Trimming -/

theorem isTrimByte_iff {b : Byte} : isTrimByte b = true ↔ b.toNat ≤ 0x20 :=
  decide_eq_true_iff

theorem lt_of_mem_head?_dropWhile {t : List Byte} {b : Byte} (first : b ∈ (t.dropWhile isTrimByte).head?) :
    0x20 < b.toNat := by
  have kept := List.head?_dropWhile_not isTrimByte t
  rw [Option.mem_def.1 first] at kept
  exact Nat.lt_of_not_le fun trim => Bool.eq_false_iff.1 kept (isTrimByte_iff.2 trim)

theorem lt_of_mem_getLast?_trimTail {t : List Byte} {b : Byte} (last : b ∈ (trimTail t).getLast?) : 0x20 < b.toNat := by
  rw [trimTail, List.getLast?_reverse] at last
  exact lt_of_mem_head?_dropWhile last

/-- A string is its trimmed part and trim bytes after it (R142). -/
theorem exists_trimTail_append (t : List Byte) : ∃ tail, trimTail t ++ tail = t ∧ ∀ b ∈ tail, b.toNat ≤ 0x20 :=
  ⟨t.rtakeWhile isTrimByte, List.rdropWhile_append_rtakeWhile, fun _ mem => isTrimByte_iff.1 (List.mem_rtakeWhile_imp mem)⟩

theorem exists_trimTail_eq_take (t : List Byte) :
    ∃ k ≤ t.length, trimTail t = t.take k ∧ ∀ b ∈ t.drop k, b.toNat ≤ 0x20 := by
  obtain ⟨tail, split, trim⟩ := exists_trimTail_append t
  refine ⟨_, length_trimTail_le t, List.prefix_iff_eq_take.1 ⟨tail, split⟩, ?_⟩
  rwa [← List.drop_left (l₁ := trimTail t) (l₂ := tail), split] at trim

/-- Bytes that are all kept stay when trim bytes behind them are dropped. -/
theorem trimTail_append {core tail : List Byte} (kept : ∀ b ∈ core, 0x20 < b.toNat) (trim : ∀ b ∈ tail, b.toNat ≤ 0x20) :
    trimTail (core ++ tail) = core := by
  have core_kept : core.rdropWhile isTrimByte = core := List.rdropWhile_eq_self_iff.2 fun ne isTrim =>
    Nat.not_le_of_lt (kept _ (List.getLast_mem ne)) (isTrimByte_iff.1 isTrim)
  rw [trimTail, List.reverse_append, List.dropWhile_append_of_pos fun b mem =>
    isTrimByte_iff.2 (trim b (List.mem_reverse.1 mem))]
  exact core_kept

theorem trimBoth_of_kept {core : List Byte} (kept : ∀ b ∈ core, 0x20 < b.toNat) : trimBoth core = core := by
  have first_kept : core.dropWhile isTrimByte = core := List.dropWhile_eq_self_iff.2 fun pos isTrim =>
    Nat.not_le_of_lt (kept _ (List.getElem_mem pos)) (isTrimByte_iff.1 isTrim)
  rw [trimBoth, first_kept]
  simpa using trimTail_append kept (tail := [])

/-- A string is leading trim bytes, its part trimmed at both ends, and trailing trim bytes (R151 step 2). -/
theorem exists_append_trimBoth_append (t : List Byte) : ∃ lead tail, t = lead ++ trimBoth t ++ tail ∧
    (∀ b ∈ lead, b.toNat ≤ 0x20) ∧ (∀ b ∈ tail, b.toNat ≤ 0x20) := by
  obtain ⟨tail, split, trim⟩ := exists_trimTail_append (t.dropWhile isTrimByte)
  refine ⟨t.takeWhile isTrimByte, tail, ?_, fun b mem => isTrimByte_iff.1 (List.mem_takeWhile_imp mem), trim⟩
  rw [trimBoth, List.append_assoc, split, List.takeWhile_append_dropWhile]

theorem lt_of_mem_head?_trimBoth {t : List Byte} {b : Byte} (first : b ∈ (trimBoth t).head?) : 0x20 < b.toNat := by
  obtain ⟨tail, split, -⟩ := exists_trimTail_append (t.dropWhile isTrimByte)
  apply lt_of_mem_head?_dropWhile (t := t)
  rw [← split, Option.mem_def, List.head?_append, ← trimBoth, Option.mem_def.1 first, Option.some_or]

/-! ### Upper case, fitting, numerals -/

theorem upperByte_eq (b : Byte) :
    upperByte b = if 0x61 ≤ b.toNat ∧ b.toNat ≤ 0x7A then BitVec.ofNat 8 (b.toNat - 0x20) else b := by
  unfold upperByte
  split_ifs with lower
  · bv_omega
  · rfl

theorem map_upperByte_of_not_lower {t : List Byte} (notLower : ∀ b ∈ t, b.toNat < 0x61 ∨ 0x7A < b.toNat) :
    t.map upperByte = t := by
  refine (List.map_congr_left fun b mem => ?_).trans (List.map_id t)
  have outside := notLower b mem
  exact if_neg (by omega)

/-- A fitted string is the string cut, and nulls where it is short. -/
theorem fitTo_eq_append (n : Nat) (t : List Byte) : fitTo n t = t.take n ++ List.replicate (n - t.length) 0x00#8 := by
  induction n generalizing t with
  | zero => simp [fitTo]
  | succ n ih => cases t <;> simp [fitTo, ih, List.replicate_succ]

theorem fitTo_eq_take (n : Nat) (t : List Byte) : fitTo n t = (t ++ List.replicate n 0x00#8).take n := by
  rw [fitTo_eq_append, List.take_append, List.take_replicate, Nat.min_eq_left (Nat.sub_le ..)]

/-- The byte that is a character's code. -/
def characterByte (c : Char) : Byte := BitVec.ofNat 8 c.toNat

theorem characterByte_digitChar : ∀ {d : Nat}, d < 10 → characterByte d.digitChar = digitByte d := by
  decide

/-- `Dec` of up to three digits is the decimal numeral (R143). -/
theorem decimal_eq_toDigits {n : Nat} (lt : n < 1000) : decimal n = (Nat.toDigits 10 n).map characterByte := by
  have base : 1 < 10 := by decide
  unfold decimal
  split_ifs with one two
  · rw [Nat.toDigits_of_lt_base one]
    simp [characterByte_digitChar one]
  · rw [Nat.toDigits_of_base_le base (by omega), Nat.toDigits_of_lt_base (by omega)]
    simp [characterByte_digitChar (d := n / 10) (by omega), characterByte_digitChar (d := n % 10) (by omega)]
  · rw [Nat.toDigits_of_base_le base (by omega), Nat.toDigits_of_base_le base (by omega),
      Nat.toDigits_of_lt_base (by omega), Nat.div_div_eq_div_mul]
    simp [characterByte_digitChar (d := n / 100) (by omega), characterByte_digitChar (d := n / 10 % 10) (by omega),
      characterByte_digitChar (d := n % 10) (by omega)]

/-! ### `RefIdToText` -/

theorem refIdToText_of_le_one {stratum : Nat} (low : stratum ≤ 1) (b0 b1 b2 b3 : Byte) (vn : Nat) :
    refIdToText b0 b1 b2 b3 stratum vn = trimTail [b0, b1, b2, b3] :=
  if_pos (by omega)

theorem refIdToText_of_two_le {stratum : Nat} (high : 2 ≤ stratum) (b0 b1 b2 b3 : Byte) (vn : Nat) :
    refIdToText b0 b1 b2 b3 stratum vn =
      if vn = 3 then dottedDecimal b0 b1 b2 b3 else if vn = 4 then refidV4Text b0 b1 b2 b3 else [] :=
  if_neg (by omega)

theorem dottedDecimal_eq_intercalate (b0 b1 b2 b3 : Byte) : dottedDecimal b0 b1 b2 b3 =
    [dotByte].intercalate ([b0, b1, b2, b3].map fun b => (Nat.toDigits 10 b.toNat).map characterByte) := by
  have numeral (b : Byte) : decimal b.toNat = (Nat.toDigits 10 b.toNat).map characterByte :=
    decimal_eq_toDigits (by omega)
  simp [dottedDecimal, numeral, List.intercalate_cons_cons]

/-- Settles O36, case by case; at stratum 0 and 1 k is the length of the trimmed string. -/
theorem refIdTextByCase : Obligations.RefIdTextByCase := by
  intro b0 b1 b2 b3 stratum vn
  refine ⟨fun low => ?_, fun high three => ?_, fun high four => ?_, fun high not3 not4 => ?_⟩
  · obtain ⟨k, le, text, trim⟩ := exists_trimTail_eq_take [b0, b1, b2, b3]
    exact ⟨k, le, (refIdToText_of_le_one low ..).trans text, trim, text ▸ fun _ => lt_of_mem_getLast?_trimTail⟩
  · rw [refIdToText_of_two_le high, if_pos three]
    exact dottedDecimal_eq_intercalate ..
  · rw [refIdToText_of_two_le high, if_neg (by omega), if_pos four]
    rfl
  · rw [refIdToText_of_two_le high, if_neg not3, if_neg not4]

/-! ### `RefIdFromText` -/

/-- Settles O37: the core is the string in upper case trimmed at both ends. -/
theorem refIdFromTextRule : Obligations.RefIdFromTextRule := by
  intro text
  obtain ⟨lead, tail, split, leadTrim, tailTrim⟩ := exists_append_trimBoth_append (text.map upperByte)
  refine ⟨lead, trimBoth (text.map upperByte), tail, ?_, leadTrim, tailTrim, fun _ => lt_of_mem_head?_trimBoth,
    fun _ => lt_of_mem_getLast?_trimTail, fitTo_eq_take 4 _⟩
  rw [← split]
  exact List.map_congr_left fun b _ => (upperByte_eq b).symm

/-- Settles O38: trimming and upper case keep the first k bytes whole, and the padding puts back the nulls. -/
theorem refIdTextInverse : Obligations.RefIdTextInverse := by
  refine ⟨fun b0 b1 b2 b3 stratum vn k low le kept nulls => ?_, by decide⟩
  rw [refIdToText_of_le_one low]
  generalize bytes_eq : [b0, b1, b2, b3] = bytes at kept nulls ⊢
  have length : bytes.length = 4 := bytes_eq ▸ rfl
  have trimmed : trimTail bytes = bytes.take k := by
    rw [← trimTail_append (fun b mem => (kept b mem).1) fun b mem => by simp [nulls b mem], List.take_append_drop]
  have padding : bytes.drop k = List.replicate (4 - k) 0x00#8 := by
    rw [List.eq_replicate_of_mem nulls, List.length_drop, length]
  rw [trimmed, refIdFromText, map_upperByte_of_not_lower fun b mem => (kept b mem).2,
    trimBoth_of_kept fun b mem => (kept b mem).1, fitTo_eq_append, List.length_take, length, Nat.min_eq_left le, ← padding,
    List.take_take, Nat.min_eq_right le, List.take_append_drop]

/-! ### `TWR`, `TRD`, `TSETLEN` -/

theorem decode_twr {c : Command} (h : c.op = 0x20#8) :
    decode c = withAddress c.arg 0x0F .noSuchTextByte (.twr c.arg c.wdata) := by
  simp [decode, h]

theorem decode_trd {c : Command} (h : c.op = 0x21#8) : decode c = withAddress c.arg 0x0F .noSuchTextByte (.trd c.arg) := by
  simp [decode, h]

theorem decode_tsetlen {c : Command} (h : c.op = 0x22#8) : decode c = withoutArg c.arg (.tsetlen c.wdata) := by
  simp [decode, h]

/-- IllegalCommand leaves every piece of the block but `SILL` (60_exceptions.md R202). -/
theorem State.sameBlock_recordIllegalCommand (s : State) (r : Resp) (d : Word64) :
    s.sameBlock { s.recordIllegalCommand.respond r d with sill := s.sill } :=
  ⟨rfl, rfl, rfl, rfl, rfl, rfl, rfl⟩

/-- Settles O39, by the laws of a byte written into a canonical buffer. -/
theorem twrStoresByte : Obligations.TwrStoresByte := by
  refine ⟨fun c op => decode_twr op ▸ ⟨fun legal => if_pos legal, fun gt => withAddress_of_gt gt ..⟩,
    fun a w s inv legal => ?_, fun a w s gt => ?_⟩
  · obtain ⟨-, -, txtWf, -⟩ := State.inv_iff.1 inv
    refine ⟨_, execTwr_legal legal w s, ⟨rfl, rfl⟩, ?_, fun x ne => s.txt.read_write_other txtWf _ ne,
      rfl, fun _ => rfl, ⟨rfl, rfl⟩, ⟨rfl, rfl⟩⟩
    simp [Memory.read_write_same s.txt txtWf]
  · exact ⟨_, execTwr_illegal gt w s, ⟨rfl, rfl⟩, s.sameBlock_recordIllegalCommand .., rfl⟩

/-- Settles O40: on both sides of 15 the block gives a response, and the failure sets `SILL`. -/
theorem trdReturnsByte : Obligations.TrdReturnsByte := by
  refine ⟨fun c op => decode_trd op ▸ ⟨fun legal => if_pos legal, fun gt => withAddress_of_gt gt ..⟩,
    fun a s legal => ?_, fun a s gt => ?_⟩
  · exact ⟨_, _, execTrd_legal legal s, ⟨rfl, rfl⟩, toNat_zeroExtendByte _, s.sameBlock_respond ..⟩
  · exact ⟨_, execTrd_illegal gt s, ⟨rfl, rfl⟩, s.sameBlock_recordIllegalCommand .., rfl⟩

/-- Settles O41, by the value of the saturated length. -/
theorem tsetlenSaturates : Obligations.TsetlenSaturates := by
  refine ⟨fun c op => decode_tsetlen op ▸ ⟨fun zero => if_pos zero, fun ne => withoutArg_of_ne ne _⟩, fun w s => ?_⟩
  refine ⟨_, execTsetlen_next w s, ⟨rfl, rfl⟩, ?_, rfl, fun _ => rfl, fun _ => rfl, rfl, ⟨rfl, rfl⟩⟩
  exact (toNat_saturatedTextLength w).trans Nat.min_def

/-! ### `RIDSTR` -/

theorem decode_ridstr {c : Command} (h : c.op = 0x23#8) : decode c = withoutArg c.arg .ridstr := by
  simp [decode, h]

/-- What a buffer reads as once its first bytes hold a fitted string. -/
theorem Memory.read_writeBytes_fitTo (m : Memory) (h : m.wf = true) (n : Nat) (t : List Byte) (a : Nat) :
    (m.writeBytes 0 (fitTo n t)).read a = if a < n then t.getD a 0x00#8 else m.read a := by
  rw [Memory.read_writeBytes m h, if_pos (Nat.zero_le a), Nat.sub_zero]
  split_ifs with lt
  · have inside : a < (fitTo n t).length := by rwa [length_fitTo]
    rw [← getD_fitTo n t a lt, List.getD_eq_getElem _ _ inside, List.getD_eq_getElem _ _ inside]
  · exact List.getD_eq_default _ _ (by rw [length_fitTo]; omega)

/-- Settles O42: the fitted text fills `TXT`, and no text is longer than `TXT`. -/
theorem ridstrWritesText : Obligations.RidstrWritesText := by
  refine ⟨fun c op => decode_ridstr op ▸ ⟨fun zero => if_pos zero, fun ne => withoutArg_of_ne ne _⟩, fun s inv => ?_⟩
  obtain ⟨-, -, txtWf, -⟩ := State.inv_iff.1 inv
  have short : s.msg.refidText.length ≤ 16 := length_refIdToText_le ..
  have read (a : Nat) := s.txt.read_writeBytes_fitTo txtWf 16 s.msg.refidText a
  refine ⟨_, execRidstr_next s, ⟨rfl, rfl⟩, ?_, short, fun a lt => ?_, fun a ge => ?_, rfl, fun _ => rfl, rfl, ⟨rfl, rfl⟩⟩
  · exact (BitVec.toNat_ofNat ..).trans (Nat.mod_eq_of_lt (by omega))
  · exact (read a).trans ((if_pos lt).trans List.getD_getElem?)
  · exact (read a).trans (if_neg (by omega))

/-! ### `RIDSET` -/

theorem decode_ridset {c : Command} (h : c.op = 0x24#8) : decode c = withoutArg c.arg .ridset := by
  simp [decode, h]

theorem Memory.readBytes_eq_map (m : Memory) (off n : Nat) : m.readBytes off n = (List.range' off n).map m.read := by
  induction n generalizing off with
  | zero => rfl
  | succ n ih => rw [Memory.readBytes, ih, List.range'_succ, List.map_cons]

/-- A byte of a word with one more byte at its end is one place further up. -/
theorem extractLsb'_append_byte {n : Nat} (v : BitVec n) (b : Byte) (k : Nat) :
    (v ++ b).extractLsb' (k + 8) 8 = v.extractLsb' k 8 :=
  BitVec.extractLsb'_append_eq_of_le (Nat.le_add_left ..)

/-- The bytes of `{b0, b1, b2, b3}` from the most significant down (10_state.md R27). -/
theorem bytes_wordOfBytes {t : List Byte} (length : t.length = 4) :
    [(wordOfBytes t).extractLsb' 24 8, (wordOfBytes t).extractLsb' 16 8, (wordOfBytes t).extractLsb' 8 8,
      (wordOfBytes t).extractLsb' 0 8] = t := by
  obtain ⟨b0, b1, b2, b3, rfl⟩ := List.length_eq_four.1 length
  have byte0 := ((extractLsb'_append_byte (b0 ++ b1 ++ b2) b3 16).trans (extractLsb'_append_byte (b0 ++ b1) b2 8)).trans
    (BitVec.extractLsb'_append_eq_left (a := b0) (b := b1))
  have byte1 := (extractLsb'_append_byte (b0 ++ b1 ++ b2) b3 8).trans
    ((extractLsb'_append_byte (b0 ++ b1) b2 0).trans BitVec.extractLsb'_append_eq_right)
  have byte2 := (extractLsb'_append_byte (b0 ++ b1 ++ b2) b3 0).trans BitVec.extractLsb'_append_eq_right
  have byte3 := BitVec.extractLsb'_append_eq_right (a := b0 ++ b1 ++ b2) (b := b3)
  have word : wordOfBytes [b0, b1, b2, b3] = b0 ++ b1 ++ b2 ++ b3 := rfl
  rw [word, byte0, byte1, byte2, byte3]

/-- Settles O43: `REFID` is the word of the four bytes of the text. -/
theorem ridsetStoresIdentifier : Obligations.RidsetStoresIdentifier := by
  refine ⟨fun c op => decode_ridset op ▸ ⟨fun zero => if_pos zero, fun ne => withoutArg_of_ne ne _⟩, fun s => ?_⟩
  refine ⟨_, execRidset_next s, ⟨rfl, rfl⟩, ?_, fun f ne => Message.get_set_other s.msg .refid f _ ne,
    fun _ => rfl, fun _ => rfl, ⟨rfl, rfl⟩, ⟨rfl, rfl⟩⟩
  have text : s.text = (List.range s.tlen.toNat).map s.txt.read := by
    rw [State.text, Memory.readBytes_eq_map, List.range_eq_range']
  rw [← text]
  exact bytes_wordOfBytes (length_fitTo 4 _)

end Sys2Proof.Machine
end

section
/-! PROOFS. The packet (spec 43_packet.md): the commands `PWR`, `PRD`, `PSETLEN`, `PACK`, `UNPACK`, and the two round trips of
R164. A packed buffer is described once, field by field (`Memory.Holds`), and both round trips are read off that. -/

namespace Sys2Proof.Machine

/-! ### `PWR`, `PRD`, `PSETLEN` -/

theorem decode_pwr {c : Command} (h : c.op = 0x30#8) : decode c = .instr (.pwr c.arg c.wdata) := by
  simp [decode, h]

theorem decode_prd {c : Command} (h : c.op = 0x31#8) :
    decode c = withAddress c.arg 0x2F .noSuchPacketByte (.prd c.arg) := by
  simp [decode, h]

theorem decode_psetlen {c : Command} (h : c.op = 0x32#8) : decode c = withoutArg c.arg (.psetlen c.wdata) := by
  simp [decode, h]

/-- Settles O44, by the laws of a byte written into a canonical buffer. -/
theorem pwrStoresByte : Obligations.PwrStoresByte := by
  refine ⟨fun c => decode_pwr, fun a w s inv => ?_⟩
  obtain ⟨pktWf, -⟩ := State.inv_iff.1 inv
  split_ifs with stored
  · refine ⟨_, execPwr_stored stored w s, ⟨rfl, rfl⟩, ⟨?_, fun x ne => s.pkt.read_write_other pktWf _ ne⟩,
      rfl, fun _ => rfl, ⟨rfl, rfl⟩, ⟨rfl, rfl⟩⟩
    simp [Memory.read_write_same s.pkt pktWf]
  · exact ⟨_, execPwr_dropped (by omega) w s, ⟨rfl, rfl⟩, fun _ => rfl, rfl, fun _ => rfl, ⟨rfl, rfl⟩, ⟨rfl, rfl⟩⟩

/-- Settles O45: on both sides of 47 the block gives a response, and the failure sets `SILL`. -/
theorem prdReturnsByte : Obligations.PrdReturnsByte := by
  refine ⟨fun c op => decode_prd op ▸ ⟨fun legal => if_pos legal, fun gt => withAddress_of_gt gt ..⟩,
    fun a s legal => ?_, fun a s gt => ?_⟩
  · exact ⟨_, _, execPrd_legal legal s, ⟨rfl, rfl⟩, toNat_zeroExtendByte _, s.sameBlock_respond ..⟩
  · exact ⟨_, execPrd_illegal gt s, ⟨rfl, rfl⟩, s.sameBlock_recordIllegalCommand .., rfl⟩

/-- Settles O46, by the value of the saturated length. -/
theorem psetlenSaturates : Obligations.PsetlenSaturates := by
  refine ⟨fun c op => decode_psetlen op ▸ ⟨fun zero => if_pos zero, fun ne => withoutArg_of_ne ne _⟩, fun w s => ?_⟩
  refine ⟨_, execPsetlen_next w s, ⟨rfl, rfl⟩, ?_, rfl, fun _ => rfl, fun _ => rfl, rfl, ⟨rfl, rfl⟩⟩
  exact (toNat_saturatedPacketLength w).trans Nat.min_def

/-! ### `PACK` -/

theorem decode_pack {c : Command} (h : c.op = 0x33#8) : decode c = withoutArg c.arg .pack := by
  simp [decode, h]

/-- The bytes of a 32-bit word from the most significant down (20_memory.md R44). -/
def bytesOfWord32 (v : Word32) : List Byte :=
  [v.extractLsb' 24 8, v.extractLsb' 16 8, v.extractLsb' 8 8, v.extractLsb' 0 8]

/-- The bytes of a 64-bit word from the most significant down (20_memory.md R46). -/
def bytesOfWord64 (v : Word64) : List Byte :=
  [v.extractLsb' 56 8, v.extractLsb' 48 8, v.extractLsb' 40 8, v.extractLsb' 32 8,
    v.extractLsb' 24 8, v.extractLsb' 16 8, v.extractLsb' 8 8, v.extractLsb' 0 8]

/-- The 48 bytes of `Pack(m)` in the order of their addresses (43_packet.md R160). -/
def packetBytes (m : Message) : List Byte :=
  [packByte0 m.li m.vn m.mode, m.stratum, m.poll, m.prec] ++
    bytesOfWord32 m.rdelay ++ bytesOfWord32 m.rdisp ++ bytesOfWord32 m.refid ++
    bytesOfWord64 (toNtpTime m.refts.toInt) ++ bytesOfWord64 (toNtpTime m.orgts.toInt) ++
    bytesOfWord64 (toNtpTime m.rects.toInt) ++ bytesOfWord64 (toNtpTime m.xmtts.toInt)

theorem length_packetBytes (m : Message) : (packetBytes m).length = 48 := rfl

theorem packInto_eq_writeBytes (p : Memory) (m : Message) : packInto p m = p.writeBytes 0 (packetBytes m) := rfl

theorem read_packInto {p : Memory} (h : p.wf = true) (m : Message) (a : Nat) :
    (packInto p m).read a = (packetBytes m).getD a (p.read a) := by
  rw [packInto_eq_writeBytes, Memory.read_writeBytes p h, if_pos (Nat.zero_le a), Nat.sub_zero]

/-- A packet leaves the addresses from 48 on alone. -/
theorem read_packInto_beyond {p : Memory} (h : p.wf = true) (m : Message) {a : Nat} (ge : 48 ≤ a) :
    (packInto p m).read a = p.read a := by
  rw [read_packInto h, List.getD_eq_default _ _ (length_packetBytes m ▸ ge)]

/-- Every field of a message stands at its place in a buffer (43_packet.md R160). -/
structure Memory.Holds (p : Memory) (m : Message) : Prop where
  byte0   : p.read 0 = packByte0 m.li m.vn m.mode
  stratum : p.read 1 = m.stratum
  poll    : p.read 2 = m.poll
  prec    : p.read 3 = m.prec
  rdelay  : p.be32Read 4 = m.rdelay
  rdisp   : p.be32Read 8 = m.rdisp
  refid   : p.be32Read 12 = m.refid
  refts   : p.be64Read 16 = toNtpTime m.refts.toInt
  orgts   : p.be64Read 24 = toNtpTime m.orgts.toInt
  rects   : p.be64Read 32 = toNtpTime m.rects.toInt
  xmtts   : p.be64Read 40 = toNtpTime m.xmtts.toInt

/-- A packet holds the message it was made from: each of its words is the concatenation of its own bytes. -/
theorem holds_packInto {p : Memory} (h : p.wf = true) (m : Message) : (packInto p m).Holds m := by
  constructor <;> simp only [Memory.be32Read, Memory.be64Read, read_packInto h]
  case byte0 | stratum | poll | prec => rfl
  case rdelay | rdisp | refid => simp [packetBytes, bytesOfWord32, word32_of_bytes]
  case refts | orgts | rects | xmtts => simp [packetBytes, bytesOfWord32, bytesOfWord64, word64_of_bytes]

/-- What `PACK` does and what it leaves (43_packet.md R168). -/
theorem exec_pack {s : State} (h : s.pkt.wf = true) : ∃ t, exec .pack s = .next t ∧ s.answered t .ok 0#64 ∧
    t.pkt.Holds s.msg ∧ (∀ a, 48 ≤ a → t.pkt.read a = s.pkt.read a) ∧ t.plen.toNat = 48 ∧
    t.msg = s.msg ∧ s.sameTxt t ∧ t.tlen = s.tlen ∧ s.sameFlags t := by
  have run := execPack_next s
  have holds := holds_packInto h s.msg
  have frame (a : Nat) := read_packInto_beyond h s.msg (a := a)
  generalize packInto s.pkt s.msg = p at run holds frame
  exact ⟨_, run, ⟨rfl, rfl⟩, holds, frame, rfl, rfl, fun _ => rfl, rfl, rfl, rfl⟩

/-- Settles O47: the packet holds the message, and byte 0 is the number its three fields make. -/
theorem packWritesPacket : Obligations.PackWritesPacket := by
  refine ⟨fun c op => decode_pack op ▸ ⟨fun zero => if_pos zero, fun ne => withoutArg_of_ne ne _⟩, fun s inv => ?_⟩
  obtain ⟨pktWf, -⟩ := State.inv_iff.1 inv
  obtain ⟨t, run, answered, holds, frame⟩ := exec_pack pktWf
  exact ⟨t, run, answered, holds.byte0 ▸ toNat_packByte0 .., holds.stratum, holds.poll, holds.prec, holds.rdelay,
    holds.rdisp, holds.refid, holds.refts, holds.orgts, holds.rects, holds.xmtts, frame⟩

/-! ### `UNPACK` -/

theorem decode_unpack {c : Command} (h : c.op = 0x34#8) : decode c = withoutArg c.arg .unpack := by
  simp [decode, h]

/-- The milliseconds of a timestamp fit a timestamp register (41_timestamp.md R125). -/
theorem toInt_ofInt_fromNtpTime (ts : Word64) : (BitVec.ofInt 64 (fromNtpTime ts)).toInt = fromNtpTime ts := by
  obtain ⟨low, high⟩ := fromNtpTime_bounds ts
  exact BitVec.toInt_ofInt_eq_self (by decide) (by omega) (by omega)

/-- Settles O48: each register is set from its place, and byte 0 and the timestamps by the laws of their codecs. -/
theorem unpackReadsPacket : Obligations.UnpackReadsPacket := by
  refine ⟨fun c op => decode_unpack op ▸ ⟨fun zero => if_pos zero, fun ne => withoutArg_of_ne ne _⟩, fun s long => ?_⟩
  obtain ⟨li, vn, mode⟩ := toNat_unpackByte0 (s.pkt.read 0)
  exact ⟨_, execUnpack_long long, ⟨rfl, rfl⟩, li, vn, mode, rfl, rfl, rfl, rfl, rfl, rfl, toInt_ofInt_fromNtpTime _,
    toInt_ofInt_fromNtpTime _, toInt_ofInt_fromNtpTime _, toInt_ofInt_fromNtpTime _, fun _ => rfl, fun _ => rfl,
    ⟨rfl, rfl⟩, ⟨rfl, rfl⟩⟩

/-! ### `UNPACK` after `PACK` -/

/-- What a timestamp register holds after it was packed and unpacked. -/
def timestampThroughPacket (t : Word64) : Word64 := BitVec.ofInt 64 (fromNtpTime (toNtpTime t.toInt))

/-- The message that comes back from a packet: the timestamps pass through their two conversions (43_packet.md R164 (1)). -/
theorem unpackFields_of_holds {p : Memory} {m : Message} (h : p.Holds m) :
    unpackFields p = { m with
      refts := timestampThroughPacket m.refts
      orgts := timestampThroughPacket m.orgts
      rects := timestampThroughPacket m.rects
      xmtts := timestampThroughPacket m.xmtts } := by
  have refid : p.read 12 ++ p.read 13 ++ p.read 14 ++ p.read 15 = m.refid := h.refid
  rw [unpackFields, h.byte0, unpackByte0_packByte0, h.stratum, h.poll, h.prec, h.rdelay, h.rdisp, refid, h.refts, h.orgts,
    h.rects, h.xmtts]
  rfl

/-- A number of milliseconds comes back exactly on the representable domain: below it everything that comes back is greater,
and from `DOM_LO` on the value of the domain with the same residue comes back (41_timestamp.md R127). -/
theorem fromNtpTime_toNtpTime_eq_self_iff (t : Int) :
    fromNtpTime (toNtpTime t) = t ↔ -61505152000 ≤ t ∧ t < 4233462144000 := by
  rcases lt_or_ge t (-61505152000) with below | low
  · obtain ⟨least, -⟩ := fromNtpTime_bounds (toNtpTime t)
    omega
  · rw [fromNtpTime_toNtpTime_of_domLo_le low]
    omega

theorem timestampThroughPacket_eq_self_iff (t : Word64) :
    timestampThroughPacket t = t ↔ -61505152000 ≤ t.toInt ∧ t.toInt < 4233462144000 := by
  rw [← fromNtpTime_toNtpTime_eq_self_iff, ← BitVec.toInt_inj, timestampThroughPacket, toInt_ofInt_fromNtpTime]

/-- Settles O50: `PACK` makes `PLEN` long enough, and the packet holds the message. -/
theorem unpackAfterPack : Obligations.UnpackAfterPack := by
  intro s inv
  obtain ⟨pktWf, -⟩ := State.inv_iff.1 inv
  obtain ⟨t, run, -, holds, -, plen, -⟩ := exec_pack pktWf
  refine ⟨t, _, run, execUnpack_long plen.ge, ⟨rfl, rfl⟩, fun f => ?_⟩
  rw [State.respond_msg, State.setMsg_msg, unpackFields_of_holds holds]
  cases f with
  | refts | orgts | rects | xmtts => exact timestampThroughPacket_eq_self_iff _
  | _ => rfl

/-! ### `PACK` after `UNPACK` -/

/-- A 32-bit read is made of its bytes. -/
theorem Memory.be32Read_eq_iff {p q : Memory} {off : Nat} :
    q.be32Read off = p.be32Read off ↔ ∀ i < 4, q.read (off + i) = p.read (off + i) := by
  constructor
  · intro same
    have bytes (m : Memory) := bytes_wordOfBytes (t := m.readBytes off 4) (m.length_readBytes off 4)
    have listed : q.readBytes off 4 = p.readBytes off 4 := by
      rw [← bytes q, ← bytes p]
      exact congrArg bytesOfWord32 same
    intro i lt
    rw [← Memory.getD_readBytes q off 4 i 0#8 lt, listed, Memory.getD_readBytes p off 4 i 0#8 lt]
  · intro same
    have first : q.read off = p.read off := same 0 (by decide)
    rw [Memory.be32Read, Memory.be32Read, first, same 1 (by decide), same 2 (by decide), same 3 (by decide)]

/-- The seconds word of a timestamp is its first word (41_timestamp.md R125). -/
theorem seconds_be64Read (p : Memory) (off : Nat) : (p.be64Read off).extractLsb' 32 32 = p.be32Read off := by
  rw [Memory.be64Read_eq_append]
  exact BitVec.extractLsb'_append_eq_left

/-- The fraction of a timestamp is its second word (41_timestamp.md R125). -/
theorem fraction_be64Read (p : Memory) (off : Nat) : (p.be64Read off).extractLsb' 0 32 = p.be32Read (off + 4) := by
  rw [Memory.be64Read_eq_append]
  exact BitVec.extractLsb'_append_eq_right

/-- A 64-bit read is made of its two words. -/
theorem Memory.be64Read_eq_iff_words {p q : Memory} {off : Nat} : q.be64Read off = p.be64Read off ↔
    q.be32Read off = p.be32Read off ∧ q.be32Read (off + 4) = p.be32Read (off + 4) := by
  rw [← seconds_be64Read, ← seconds_be64Read, ← fraction_be64Read, ← fraction_be64Read]
  refine ⟨fun same => ?_, fun ⟨seconds, fraction⟩ => eq_of_seconds_fraction seconds fraction⟩
  rw [same]
  exact ⟨rfl, rfl⟩

/-- A 64-bit read is made of its bytes. -/
theorem Memory.be64Read_eq_iff {p q : Memory} {off : Nat} :
    q.be64Read off = p.be64Read off ↔ ∀ i < 8, q.read (off + i) = p.read (off + i) := by
  rw [Memory.be64Read_eq_iff_words, Memory.be32Read_eq_iff, Memory.be32Read_eq_iff]
  refine ⟨fun ⟨first, second⟩ i lt => ?_, fun same => ⟨fun i lt => same i (by omega), fun i lt => ?_⟩⟩
  · rcases Nat.lt_or_ge i 4 with low | high
    · exact first i low
    · obtain ⟨k, rfl⟩ := Nat.exists_eq_add_of_le high
      rw [← Nat.add_assoc]
      exact second k (by omega)
  · rw [Nat.add_assoc]
    exact same (4 + i) (by omega)

/-- The message of a buffer's fields, packed, gives back the first 16 bytes (43_packet.md R164 (2)). -/
theorem read_of_holds_unpackFields {p q : Memory} (h : q.Holds (unpackFields p)) {a : Nat} (lt : a < 16) :
    q.read a = p.read a := by
  have byte0 : q.read 0 = p.read 0 := h.byte0.trans (packByte0_unpackByte0 _)
  have first : q.be32Read 0 = p.be32Read 0 := by
    simp only [Memory.be32Read, byte0, h.stratum, h.poll, h.prec, unpackFields]
  obtain ⟨k, i, low, rfl⟩ : ∃ k i, i < 4 ∧ a = 4 * k + i := ⟨a / 4, a % 4, by omega, by omega⟩
  have word : q.be32Read (4 * k) = p.be32Read (4 * k) := by
    obtain rfl | rfl | rfl | rfl : k = 0 ∨ k = 1 ∨ k = 2 ∨ k = 3 := by omega
    exacts [first, h.rdelay, h.rdisp, h.refid]
  exact Memory.be32Read_eq_iff.1 word i low

/-- A timestamp of a buffer, unpacked and packed, is the same eight bytes exactly when its fraction is a whole number of
milliseconds (43_packet.md R164 (2), 41_timestamp.md R128). -/
theorem timestamp_bytes_same_iff {p q : Memory} {off : Nat}
    (written : q.be64Read off = toNtpTime (BitVec.ofInt 64 (fromNtpTime (p.be64Read off))).toInt) :
    (∀ i < 8, q.read (off + i) = p.read (off + i)) ↔ ∃ r < 1000, (p.be32Read (off + 4)).toNat = r * 2 ^ 32 / 1000 := by
  obtain ⟨exactly, -⟩ := timestampRoundTrip (p.be64Read off)
  rw [← Memory.be64Read_eq_iff, written, toInt_ofInt_fromNtpTime, ← fraction_be64Read]
  exact exactly

/-- Settles O51: the second packet holds what the first one's fields are. -/
theorem packAfterUnpack : Obligations.PackAfterUnpack := by
  intro s inv long
  obtain ⟨pktWf, -⟩ := State.inv_iff.1 inv
  obtain ⟨u, run, -, holds, -⟩ := exec_pack (s := (s.setMsg (unpackFields s.pkt)).respond .ok 0#64) pktWf
  refine ⟨_, u, execUnpack_long long, run, fun a => read_of_holds_unpackFields holds, fun o mem => ?_⟩
  simp only [List.mem_cons, List.not_mem_nil, or_false] at mem
  rcases mem with rfl | rfl | rfl | rfl
  · exact timestamp_bytes_same_iff holds.refts
  · exact timestamp_bytes_same_iff holds.orgts
  · exact timestamp_bytes_same_iff holds.rects
  · exact timestamp_bytes_same_iff holds.xmtts

end Sys2Proof.Machine
end

section
/-! PROOFS. The system commands (spec 44_system.md): a command sees nothing but the block's state (R183), and `SRD` and `SCLR`
report and clear the flags. -/

namespace Sys2Proof.Machine

/-! ### The block's state alone decides -/

/-- A command reads nothing outside the block's state (10_state.md R20). -/
theorem State.sameBlock.readsAlike {s s' : State} (same : s.sameBlock s') (i : Instr) : s.ReadsAlike i s' := by
  obtain ⟨msg, pkt, plen, txt, tlen, sinv, sill⟩ := same
  exact ⟨msg, pkt, txt, fun _ => plen, fun _ => tlen, fun _ => by simp only [State.statusWord, plen, tlen, sinv, sill]⟩

/-- A change writes the block's state from the block's state alone. -/
theorem Change.sameBlock_apply (c : Change) {s s' : State} (same : s.sameBlock s') :
    (c.apply s).sameBlock (c.apply s') := by
  obtain ⟨msg, pkt, plen, txt, tlen, sinv, sill⟩ := same
  exact ⟨c.apply_msg_congr msg, c.apply_pkt_congr pkt, c.apply_plen_congr plen, c.apply_txt_congr txt,
    c.apply_tlen_congr tlen, c.apply_sinv_congr sinv, c.apply_sill_congr sill⟩

/-- On states that agree on the block, a step on one command makes the same change and gives the same response. -/
theorem step_change_of_sameBlock {s s' : State} {c : Command} {rest rest' : List HostEvent} (same : s.sameBlock s')
    (events : s.hostEvents = .command c :: rest) (events' : s'.hostEvents = .command c :: rest') :
    ∃ (ch : Change) (d : Word64),
      step s = .next ((ch.apply { s with hostEvents := rest }).respond ch.resp d) ∧
      step s' = .next ((ch.apply { s' with hostEvents := rest' }).respond ch.resp d) := by
  rw [step_of_command events, step_of_command events']
  cases decode c with
  | instr i =>
    obtain ⟨ch, d, -, -, run⟩ := exec_change i { s with hostEvents := rest }
    have sameTaken : State.sameBlock { s with hostEvents := rest } { s' with hostEvents := rest' } := same
    exact ⟨ch, d, run _ (.refl ..), run _ (sameTaken.readsAlike i)⟩
  | illegal why => exact ⟨.illegalCommand, 0#64, rfl, rfl⟩

/-- Settles O15: the two steps make one change, and a change depends on the block's state alone. -/
theorem stateAloneDecidesEffect : Obligations.StateAloneDecidesEffect := by
  intro s s' c rest rest' same events events'
  obtain ⟨ch, d, run, run'⟩ := step_change_of_sameBlock same events events'
  have sameAfter := ch.sameBlock_apply (s := { s with hostEvents := rest }) (s' := { s' with hostEvents := rest' }) same
  exact ⟨_, _, { resp := ch.resp, rdata := d }, run, run', sameAfter, by simp, by simp⟩

/-! ### `SRD` and `SCLR` -/

theorem decode_srd {c : Command} (h : c.op = 0x40#8) : decode c = withoutArg c.arg .srd := by
  simp [decode, h]

theorem decode_sclr {c : Command} (h : c.op = 0x41#8) : decode c = withoutArg c.arg .sclr := by
  simp [decode, h]

/-- The status word as a number: each piece counts at the place of its lowest bit (44_system.md R180). -/
theorem State.toNat_statusWord (s : State) : s.statusWord.toNat =
    s.sinv.toNat + 2 * s.sill.toNat + 2 ^ 8 * s.tlen.toNat + 2 ^ 16 * s.plen.toNat := by
  simp only [State.statusWord, toNat_append_eq_add, BitVec.toNat_ofBool, BitVec.toNat_ofNat]
  omega

/-- Settles O52: `SRD` answers with the status word and does nothing else. -/
theorem srdReportsStatus : Obligations.SrdReportsStatus := by
  refine ⟨fun c op => decode_srd op ▸ ⟨fun zero => if_pos zero, fun ne => withoutArg_of_ne ne _⟩, fun s => ?_⟩
  exact ⟨_, _, execSrd_next s, ⟨rfl, rfl⟩, s.sameBlock_respond .., s.toNat_statusWord⟩

/-- Settles O53: the state after `SCLR` is the one with both flags cleared. -/
theorem sclrClearsFlags : Obligations.SclrClearsFlags := by
  refine ⟨fun c op => decode_sclr op ▸ ⟨fun zero => if_pos zero, fun ne => withoutArg_of_ne ne _⟩, fun s => ?_⟩
  exact ⟨_, execSclr_next s, ⟨rfl, rfl⟩, rfl, rfl, rfl, fun _ => rfl, fun _ => rfl, ⟨rfl, rfl⟩⟩

end Sys2Proof.Machine
end

section
/-! PROOFS. The failures (spec 60_exceptions.md R200 to R207, R214): a command ends in one of three ways, by its word and `PLEN`,
and what the host receives and what a failure leaves are read off them. -/

namespace Sys2Proof.Machine

/-! ### The two causes of failure -/

/-- A word that 30_encoding.md R74 calls illegal raises IllegalCommand in every state (R202). -/
theorem step_of_illegalWord {s : State} {c : Command} {rest : List HostEvent} (events : s.hostEvents = .command c :: rest)
    (illegal : illegalWord c.op.toNat c.arg.toNat) :
    step s = .next ((State.recordIllegalCommand { s with hostEvents := rest }).respond .illegalCommand 0#64) := by
  obtain ⟨why, rejected⟩ := decode_of_illegalWord illegal
  rw [step_of_command events, rejected]
  rfl

/-- `UNPACK` has the one word 0x3400 (30_encoding.md R73). -/
theorem decode_eq_unpack_iff {c : Command} : decode c = .instr .unpack ↔ c.cmd = 0x3400#16 := by
  rw [decode_eq_instr]
  refine ⟨fun stands => (cmd_encode_of_standsFor stands).symm, fun cmd => ⟨rfl, ?_, ?_, rfl⟩⟩
  · rw [Command.op, cmd]
    rfl
  · rw [Command.arg, cmd]
    rfl

/-- The word of `UNPACK` raises InvalidPacket where `PLEN` is short of a packet (R201). -/
theorem step_of_short_unpack {s : State} {c : Command} {rest : List HostEvent} (events : s.hostEvents = .command c :: rest)
    (cmd : c.cmd = 0x3400#16) (short : s.plen.toNat < 48) :
    step s = .next ((State.recordInvalidPacket { s with hostEvents := rest }).respond .invalidPacket 0#64) := by
  rw [step_of_command events, decode_eq_unpack_iff.2 cmd]
  exact execUnpack_short (s := { s with hostEvents := rest }) short

/-! ### Success -/

theorem hostEvents_of_exec {i : Instr} {s t : State} (run : exec i s = .next t) : t.hostEvents = s.hostEvents := by
  obtain ⟨u, r, d, answer, -, port⟩ := exec_answers i s
  obtain rfl := Host.Outcome.next.inj (run.symm.trans answer)
  exact port

/-- Any other command answers OK (R200). -/
theorem step_of_neither_cause {s : State} {c : Command} {rest : List HostEvent} (events : s.hostEvents = .command c :: rest)
    (legal : ¬ illegalWord c.op.toNat c.arg.toNat) (notShort : ¬ (c.cmd = 0x3400#16 ∧ s.plen.toNat < 48)) :
    ∃ (u : State) (d : Word64), step s = .next (u.respond .ok d) ∧ u.responses = s.responses ∧ u.hostEvents = rest := by
  obtain ⟨i, stands⟩ := exists_standsFor legal
  have decoded := decode_of_standsFor stands
  obtain ⟨u, d, run, received⟩ := exec_of_wellFormed stands.wellFormed { s with hostEvents := rest }
  have fits : ¬ (i = .unpack ∧ s.plen.toNat < 48) := by
    rintro ⟨rfl, short⟩
    exact notShort ⟨decode_eq_unpack_iff.1 decoded, short⟩
  rw [if_neg fits] at run
  refine ⟨u, d, ?_, received, hostEvents_of_exec run⟩
  rw [step_of_command events, decoded]
  exact run

/-! ### The three ways a command ends -/

/-- An illegal word is not the word of `UNPACK`. -/
theorem cmd_ne_unpack_of_illegalWord {c : Command} (illegal : illegalWord c.op.toNat c.arg.toNat) : c.cmd ≠ 0x3400#16 := by
  intro cmd
  obtain ⟨why, rejected⟩ := decode_of_illegalWord illegal
  cases rejected.symm.trans (decode_eq_unpack_iff.2 cmd)

/-- A command fails by one of the two causes, which exclude each other, or succeeds (R200). -/
theorem step_command_cases {s : State} {c : Command} {rest : List HostEvent} (events : s.hostEvents = .command c :: rest) :
    (illegalWord c.op.toNat c.arg.toNat ∧ c.cmd ≠ 0x3400#16 ∧
      step s = .next ((State.recordIllegalCommand { s with hostEvents := rest }).respond .illegalCommand 0#64)) ∨
    (¬ illegalWord c.op.toNat c.arg.toNat ∧ (c.cmd = 0x3400#16 ∧ s.plen.toNat < 48) ∧
      step s = .next ((State.recordInvalidPacket { s with hostEvents := rest }).respond .invalidPacket 0#64)) ∨
    (¬ illegalWord c.op.toNat c.arg.toNat ∧ ¬ (c.cmd = 0x3400#16 ∧ s.plen.toNat < 48) ∧
      ∃ (u : State) (d : Word64), step s = .next (u.respond .ok d) ∧ u.responses = s.responses ∧ u.hostEvents = rest) := by
  by_cases illegal : illegalWord c.op.toNat c.arg.toNat
  · exact .inl ⟨illegal, cmd_ne_unpack_of_illegalWord illegal, step_of_illegalWord events illegal⟩
  by_cases short : c.cmd = 0x3400#16 ∧ s.plen.toNat < 48
  · obtain ⟨cmd, lt⟩ := short
    exact .inr (.inl ⟨illegal, ⟨cmd, lt⟩, step_of_short_unpack events cmd lt⟩)
  · exact .inr (.inr ⟨illegal, short, step_of_neither_cause events illegal short⟩)

/-- Code 3 is never produced (R200). -/
theorem Resp.code_ne_three (r : Resp) : r.code ≠ 3#2 := by
  cases r <;> decide

/-- Settles O11: each of the three ways has its own code. -/
theorem responseCodesByCause : Obligations.ResponseCodesByCause := by
  refine ⟨⟨rfl, rfl, rfl⟩, fun s c rest events => ?_⟩
  obtain ⟨illegal, other, run⟩ | ⟨legal, short, run⟩ | ⟨legal, notShort, u, d, run, received, port⟩ :=
    step_command_cases events
  · exact ⟨_, { resp := .illegalCommand, rdata := 0#64 }, run, rfl, rfl, Resp.code_ne_three _,
      iff_of_false nofun fun unpack => other unpack.1, iff_of_true rfl illegal, nofun, fun _ => rfl⟩
  · exact ⟨_, { resp := .invalidPacket, rdata := 0#64 }, run, rfl, rfl, Resp.code_ne_three _,
      iff_of_true rfl short, iff_of_false nofun legal, fun _ => rfl, nofun⟩
  · exact ⟨_, { resp := .ok, rdata := d }, run, port, received ▸ rfl, Resp.code_ne_three _,
      iff_of_false nofun notShort, iff_of_false nofun legal, nofun, nofun⟩

/-- The one response more than in `s` is the one just given. -/
theorem State.eq_of_respond_responses {s u : State} {resp : Resp} {d : Word64} {r : Response}
    (received : u.responses = s.responses) (last : (u.respond resp d).responses = s.responses ++ [r]) :
    r = { resp := resp, rdata := d } := by
  rw [State.respond_responses, received] at last
  exact (List.singleton_inj.1 (List.append_cancel_left last)).symm

/-- Settles O12: the two ways of failure each give the whole state after them. -/
theorem failureIsPrecise : Obligations.FailureIsPrecise := by
  intro s t c rest r events run last notOk
  obtain ⟨-, -, out⟩ | ⟨-, -, out⟩ | ⟨-, -, u, d, out, received, -⟩ := step_command_cases events
  all_goals obtain rfl := Host.Outcome.next.inj (out.symm.trans run)
  · obtain rfl := State.eq_of_respond_responses rfl last
    exact ⟨rfl, .inr rfl⟩
  · obtain rfl := State.eq_of_respond_responses rfl last
    exact ⟨rfl, .inl rfl⟩
  · obtain rfl := State.eq_of_respond_responses received last
    exact absurd rfl notOk

/-! ### The effects of each failure, and of no command at all -/

/-- Settles O6: the step is that of an illegal word, field by field. -/
theorem illegalCommandEffects : Obligations.IllegalCommandEffects :=
  ⟨rfl, fun _ _ _ events illegal => step_of_illegalWord events illegal⟩

/-- Settles O49: `UNPACK` compares `PLEN` with 48 and then either raises or stores the fields. -/
theorem invalidPacketEffects : Obligations.InvalidPacketEffects :=
  ⟨rfl, fun _ short => execUnpack_short short, fun _ long => ⟨_, execUnpack_long long, rfl, rfl⟩⟩

/-- Settles O8: with no event to take the step is the identity. -/
theorem idleKeepsState : Obligations.IdleKeepsState := fun _ => step_of_idle

end Sys2Proof.Machine
end

section
/-! PROOFS. A run with no reset event and no `SCLR` (spec 70_reset_and_hazards.md R226): the flags at its end say whether it was
unflagged at first and every response since is OK. -/

namespace Sys2Proof.Machine

/-! ### Both flags at once -/

theorem State.unflagged_iff {s : State} : s.unflagged = true ↔ ¬ s.sinv = true ∧ ¬ s.sill = true := by
  simp [State.unflagged]

/-- The response OK is the one that is neither failure (60_exceptions.md R200). -/
theorem Resp.eq_ok_iff {r : Resp} : r = .ok ↔ r ≠ .invalidPacket ∧ r ≠ .illegalCommand := by
  cases r <;> decide

/-- A change other than `SCLR`'s leaves both flags 0 exactly when they were and its response is OK. -/
theorem Change.unflagged_apply (c : Change) (s : State) (keeps : c ≠ .flagsCleared) :
    (c.apply s).unflagged = true ↔ s.unflagged = true ∧ c.resp = .ok := by
  rw [State.unflagged_iff, c.apply_sinv s keeps, c.apply_sill s keeps, not_or, not_or, State.unflagged_iff, Resp.eq_ok_iff]
  exact and_and_and_comm

theorem HostEvent.clearsFlags_command {c : Command} :
    (HostEvent.command c).clearsFlags = false ↔ decode c ≠ .instr .sclr :=
  decide_eq_false_iff_not

/-! ### The responses since a state, and the flags -/

/-- From `s` to `t` the host received some responses more, and both flags are 0 in `t` exactly when they are 0 in `s` and all
those responses are OK. -/
def State.FlagsRecord (s t : State) : Prop :=
  ∃ since, t.responses = s.responses ++ since ∧
    (t.unflagged = true ↔ s.unflagged = true ∧ ∀ r ∈ since, r.resp = .ok)

theorem State.FlagsRecord.refl (s : State) : s.FlagsRecord s :=
  ⟨[], by simp, by simp⟩

theorem State.FlagsRecord.trans {s t u : State} (first : s.FlagsRecord t) (second : t.FlagsRecord u) : s.FlagsRecord u := by
  obtain ⟨since, received, flags⟩ := first
  obtain ⟨since', received', flags'⟩ := second
  refine ⟨since ++ since', by rw [received', received, List.append_assoc], ?_⟩
  rw [flags', flags, List.forall_mem_append, and_assoc]

/-- A step takes the host's next event, and the flags record its response unless the event clears them. -/
theorem step_flagsRecord {s t : State} (quiet : ∀ e ∈ s.hostEvents.take 1, e.clearsFlags = false) (run : step s = .next t) :
    t.hostEvents = s.hostEvents.tail ∧ s.FlagsRecord t := by
  match events : s.hostEvents with
  | [] =>
    obtain rfl : s = t := Host.Outcome.next.inj ((step_of_idle events).symm.trans run)
    exact ⟨events, .refl s⟩
  | .reset :: rest => exact absurd (quiet .reset (by simp [events])) (by decide)
  | .command c :: rest =>
    have notSclr := HostEvent.clearsFlags_command.1 (quiet (.command c) (by simp [events]))
    obtain ⟨ch, d, clears, -, out⟩ := step_change events
    obtain rfl := Host.Outcome.next.inj (out.symm.trans run)
    have flags := ch.unflagged_apply { s with hostEvents := rest } fun eq => notSclr (clears eq)
    exact ⟨by simp, [{ resp := ch.resp, rdata := d }], by simp, by rw [List.forall_mem_singleton]; exact flags⟩

/-! ### Runs -/

/-- A run of one step more is a step and the rest of the run. -/
theorem run_succ_eq_next {M : Host.Core} {n : Nat} {s t : M.State} :
    M.run (n + 1) s = .next t ↔ ∃ u, M.step s = .next u ∧ M.run n u = .next t := by
  rw [Host.Core.run]
  cases M.step s <;> simp

/-- Over a run whose events clear no flag, the flags record the responses. -/
theorem run_flagsRecord {n : Nat} {s t : State} (quiet : ∀ e ∈ s.hostEvents.take n, e.clearsFlags = false)
    (run : core.run n s = .next t) : s.FlagsRecord t := by
  induction n generalizing s with
  | zero =>
    obtain rfl := Host.Outcome.next.inj run
    exact .refl s
  | succ n ih =>
    obtain ⟨u, first, others⟩ := run_succ_eq_next.1 run
    obtain ⟨events, flags⟩ := step_flagsRecord
      (fun e mem => quiet e (List.take_subset_take_left _ (Nat.le_add_left 1 n) mem)) first
    refine flags.trans (ih (fun e mem => quiet e (List.mem_of_mem_tail ?_)) others)
    rwa [List.tail_take_eq_take_tail, Nat.add_sub_cancel, ← events]

/-- Settles O14: from a state with both flags 0 the record is about the responses alone. -/
theorem flagsTellOfEveryFailure : Obligations.FlagsTellOfEveryFailure := by
  intro n s t unflagged quiet run
  obtain ⟨since, received, flags⟩ := run_flagsRecord quiet run
  rw [received, List.drop_left, flags]
  exact and_iff_right unflagged

end Sys2Proof.Machine
end

section
/-! PROOFS. The decoder inverts the encoder, a step runs what it decodes to, and the state after reset meets the invariant. -/

namespace Sys2Proof.Machine

/-- Settles O2: the encoding of a well-formed command stands for it, and a word decodes to the command it stands for. -/
theorem decodeOfEncode : Obligations.DecodeOfEncode := fun _ wf => decode_encode wf

/-- Settles O5: a word that decodes to a command stands for it, and the step takes the decoder's answer. -/
theorem stepRunsDecodedCommand : Obligations.StepRunsDecodedCommand := by
  intro s c rest i events decoded
  have stands : c.StandsFor i := decode_eq_instr.1 decoded
  refine ⟨stands.wellFormed, ?_⟩
  rw [step_of_command events, decoded]

/-- Settles O10: empty buffers are canonical and in range, and `TLEN` is 0. -/
theorem resetMeetsInvariant : Obligations.ResetMeetsInvariant := by
  intro events received
  obtain ⟨pktWf, txtWf⟩ := State.reset_buffers_wf
  exact State.inv_iff.2 ⟨pktWf, rfl, txtWf, rfl, Nat.zero_le 16⟩

end Sys2Proof.Machine
end
